-- ==== Sys2Proof/Word.lean ====
section
/-! DEFINITION. The two words of the hardware (spec/00_scope.md R8): the 8-bit byte, which is also the width of one
character cell (R6 `CHAR_BITS`), and the 4-bit nibble, which is also the width of one random draw (R6 `DRAW_BITS`).
Every value is unsigned (R7). -/

namespace Sys2Proof

/-- A byte: one cell of `S` or `B`, a command byte, `STATUS` (R8, R20). -/
abbrev Byte := BitVec 8

/-- A nibble: half a cell of `B`, one element of the working array `N`, one draw (R8, R33, R116). -/
abbrev Nibble := BitVec 4

end Sys2Proof
end

