-- ==== Sys2Proof/Config.lean ====
section
/-! DEFINITION. The parameters of the hardware (spec/00_scope.md R6) and the free values: what the spec leaves open
and no proof may know. `REGMAP` (R6, 20_memory.md R63) has no constant here, since the model names registers
(log entry 13). -/

namespace Sys2Proof

/-- `PIN_MIN`, the least PIN length (R6). -/
abbrev Config.pinMin : Nat := 4

/-- `PIN_MAX`, the greatest PIN length (R6). -/
abbrev Config.pinMax : Nat := 12

/-- `BLOCK_BYTES`, the PIN-block size in bytes (R6). -/
abbrev Config.blockBytes : Nat := 8

/-- `BLOCK_NIBBLES`, the PIN-block size in nibbles (R6). -/
abbrev Config.blockNibbles : Nat := 16

/-- `CONTROL`, the control nibble that identifies Format 1 (R2, R6). -/
abbrev Config.control : Nibble := 1

/-- `SCAP`, the cells of the string buffer `S` (R6). -/
abbrev Config.scap : Nat := 16

/-- `BCAP`, the cells of the byte buffer `B` (R6). -/
abbrev Config.bcap : Nat := 8

/-- FREE VALUE: what a live random source answers to its `k`-th request. Nothing is known of it: every one of the 16
values is possible for every request (41_encode_assembler.md R116, 93_implementation_defined.md U7; log entry 4). -/
opaque Config.freeDraw (k : Nat) : Nibble

/-- FREE VALUE: what access number `k` finds in the cell at index `i` when that cell holds no value: "an unspecified
8-bit value, not necessarily the same on two reads" (10_state.md R30, 93_implementation_defined.md U5; log entry 1).
Also what an operation that read a cell without a value leaves at index `i` of its destination (R29; log entry 2). -/
opaque Config.freeByte (k i : Nat) : Byte

/-- FREE VALUE: which of the seven values `STATUS` can have (30_encoding.md R86) it has after an operation that read a
cell without a value, which was access number `k` (10_state.md R29; log entry 2). -/
opaque Config.freeStatus (k : Nat) : Fin 7

/-- FREE VALUE: how many cells an operation that read a cell without a value gives its destination, or how many draws it
asks for (10_state.md R29; log entry 2). -/
opaque Config.freeCount (k : Nat) : Nat

end Sys2Proof
end

