-- ==== Sys2Proof/Syntax.lean ====
section
/-! DEFINITION. The five operations of spec/opcode_table.json, one constructor per row (spec/30_encoding.md R72). A
command has no operand field: every operation takes its operands from fixed registers (R70). -/

namespace Sys2Proof

/-- The operations of the core (R72). -/
inductive Instr where
  /-- `PACK`, 0x01: hex-digit string in `S` to bytes in `B` (43_bcd_pack_unpack.md R152). -/
  | pack
  /-- `UNPACK`, 0x02: bytes in `B` to hex-digit string in `S` (43_bcd_pack_unpack.md R153). -/
  | unpack
  /-- `ENCODE`, 0x03: PIN in `S` to Format-1 block in `B` (41_encode_assembler.md R111). -/
  | encode
  /-- `DECODE`, 0x04: Format-1 block in `B` to PIN in `S` (42_decode_extractor.md R131). -/
  | decode
  /-- `CHKLEN`, 0x05: validate `SLEN` as a PIN length (40_length_validator.md R101). -/
  | chklen
deriving DecidableEq, Repr

end Sys2Proof
end

