-- ==== Sys2Proof/Decode.lean ====
section
/-! DEFINITION. The command decoder, total on every byte, and the encoder (spec/30_encoding.md R70 to R73). -/

namespace Sys2Proof

/-- What the decoder makes of a command byte: an operation, or a reserved byte, rejected by the spec's name for it
(R73, 60_exceptions.md R174). -/
inductive Decoded where
  | instr (i : Instr)
  | illegalOp (cmd : Byte)
deriving DecidableEq, Repr

/-- Field `RSV` of a command byte, bits 7:3 (R70). -/
def cmdRsv (cmd : Byte) : BitVec 5 := cmd.extractLsb' 3 5

/-- Field `OP` of a command byte, bits 2:0 (R70). -/
def cmdOp (cmd : Byte) : BitVec 3 := cmd.extractLsb' 0 3

/-- The operation that an `OP` code selects (R72). -/
def opInstr (op : BitVec 3) : Option Instr :=
  match op with
  | 0b001#3 => some .pack
  | 0b010#3 => some .unpack
  | 0b011#3 => some .encode
  | 0b100#3 => some .decode
  | 0b101#3 => some .chklen
  | _ => none

/-- Decoding is on the whole byte: `RSV` must be 0 and `OP` one of the five codes (R71); every other byte is reserved
(R73). -/
def decode (cmd : Byte) : Decoded :=
  if cmdRsv cmd = 0 then
    match opInstr (cmdOp cmd) with
    | some i => .instr i
    | none => .illegalOp cmd
  else .illegalOp cmd

/-- The `OP` code of an operation (R72). -/
def instrOp (i : Instr) : BitVec 3 :=
  match i with
  | .pack => 0b001
  | .unpack => 0b010
  | .encode => 0b011
  | .decode => 0b100
  | .chklen => 0b101

/-- The command byte of an operation: `RSV = 0`, then `OP` (R70, R72). -/
def encode (i : Instr) : Byte := 0b00000#5 ++ instrOp i

/-- The command byte whose bits are the low `nbits` bits of `w`: a command is one byte (R70), so bits above 7 are no
part of it. -/
def commandByte (nbits w : Nat) : Byte := BitVec.ofNat 8 (w % 2 ^ nbits)

/-- The operation the decoder reads from a command byte given as spec/opcode_table.json numbers its bits. -/
def decodeTableWord (nbits w : Nat) : Option Instr :=
  match decode (commandByte nbits w) with
  | .instr i => some i
  | .illegalOp _ => none

end Sys2Proof
end

