-- ==== Sys2Proof/Machine/State.lean ====
section
/-! DEFINITION. The state of one core (spec/10_state.md R20), what can arrive from outside it, and the state after
reset (R36). -/

namespace Sys2Proof.Machine

/-- Outcome codes of `STATUS.FAULT` (spec/30_encoding.md R86). These are the spec's faults: a command that ends in one
writes its code to `STATUS` and the core goes on (60_exceptions.md R180), so each is a next state of the model (DEDUCED,
log entry 6, safe). -/
inductive FaultCode where
  /-- `None`: the operation completed. -/
  | noFault
  /-- Raised by ENCODE and CHKLEN (60_exceptions.md R171). -/
  | invalidPinLength
  /-- Raised by PACK and ENCODE (60_exceptions.md R172). -/
  | badDigit
  /-- Raised by PACK, UNPACK and DECODE (60_exceptions.md R173). -/
  | badCount
  /-- Raised by every reserved command byte (60_exceptions.md R174). -/
  | illegalOp
  /-- Raised by DECODE (60_exceptions.md R175). -/
  | decodeOverrun
deriving DecidableEq, Repr

/-- One access of the host port to one register (10_state.md R35). The index types hold exactly the cells there are. -/
inductive HostAccess where
  | writeS (k : Fin 16) (c : Byte)
  | writeSLEN (n : BitVec 5)
  | writeB (i : Fin 8) (b : Byte)
  | writeBLEN (m : BitVec 4)
  /-- A host write to `STATUS`, which changes nothing (10_state.md R25). -/
  | writeSTATUS (v : Byte)
  | readS (k : Fin 16)
  | readSLEN
  | readB (i : Fin 8)
  | readBLEN
  | readSTATUS
deriving DecidableEq, Repr

/-- What one host read returned, at the register's own width (20_memory.md R57). -/
inductive Reading where
  | ofS (k : Fin 16) (c : Byte)
  | ofSLEN (n : BitVec 5)
  | ofB (i : Fin 8) (b : Byte)
  | ofBLEN (m : BitVec 4)
  | ofSTATUS (v : Byte)
deriving DecidableEq, Repr

/-- The random source connected to the core (60_exceptions.md R190). -/
inductive RandomSource where
  /-- Answers every request, each time with a free value. -/
  | live
  /-- The "fixed-sequence stub" of 60_exceptions.md R192, with the answers it still has, the next one first. One
  without answers leaves a request unanswered (70_reset_and_hazards.md R214). -/
  | stub (left : List Nibble)
deriving DecidableEq, Repr

/-- What can arrive from outside the core (DESIGN CHOICE, log entry 3, safe). -/
inductive Event where
  /-- The host reads or writes one register (10_state.md R35). -/
  | access (a : HostAccess)
  /-- The host presents a command byte on `CMD` (10_state.md R26). -/
  | command (cmd : Byte)
  /-- The reset input is asserted (70_reset_and_hazards.md R200). -/
  | reset
  /-- The platform connects a random source, or the source comes to have answers (70_reset_and_hazards.md R206,
  R214). -/
  | connect (src : RandomSource)
deriving DecidableEq, Repr

/-- One cell of `S` or `B`: the 8 bits it is wide (10_state.md R20), and whether it holds a value in the sense of R28. -/
structure Cell where
  /-- The 8 bits. -/
  value : Byte
  /-- Does the cell hold a value (R28)? -/
  held : Bool
deriving DecidableEq, Repr

/-- A cell that holds the value `c`. -/
def Cell.holding (c : Byte) : Cell := { value := c, held := true }

/-- A cell that "holds no value" (R28): its 8 bits are 0x00, which nothing can observe (DESIGN CHOICE, log entry 1, safe:
reading it gives a free value, R30). -/
def Cell.empty : Cell := { value := 0x00, held := false }

/-- The state of one core: the registers of 10_state.md R20 under the spec's names, the hidden state of R33, and, as
data the step reads, what the outside world still does and has got. Every cell of `S` and `B` has its 8 bits and a mark
that says whether it holds a value (R28; log entry 1). -/
structure State where
  /-- `S[0..15]`, the string buffer (R21). -/
  S : Vector Cell 16
  /-- `SLEN`, the number of valid cells of `S`; 0 to 31 can be written (R22). -/
  SLEN : BitVec 5
  /-- `B[0..7]`, the byte buffer (R23). -/
  B : Vector Cell 8
  /-- `BLEN`, the number of valid cells of `B`; 0 to 15 can be written (R24). -/
  BLEN : BitVec 4
  /-- `STATUS`, the outcome of the last command (R25). -/
  STATUS : Byte
  /-- The working array `N` (R33) of an ENCODE in progress that waits for the random source (70_reset_and_hazards.md
  R214), as far as it is assembled; `none` when no operation is in progress. -/
  waiting : Option (List Nibble)
  /-- MODEL, DESIGN CHOICE (log entry 3), safe: what arrives from outside from now on, the next event first. -/
  events : List Event
  /-- MODEL, DESIGN CHOICE (log entry 3), safe: what the host port has returned, oldest first. -/
  readings : List Reading
  /-- MODEL, DESIGN CHOICE (log entry 4), safe: the random source, which is outside the core. -/
  source : RandomSource
  /-- MODEL, DESIGN CHOICE (log entry 4), safe: how many draws were answered; names the next free draw. -/
  draws : Nat
  /-- MODEL, DESIGN CHOICE (log entries 1, 2), safe: how many accesses there were that can find a cell without a value;
  names the next free values. -/
  reads : Nat
deriving DecidableEq, Repr

/-- Ways the machine can stop with a fault of the host's kind: none. The spec's own faults are outcomes in `STATUS`
after which the core is ready for the next command (60_exceptions.md R180), and an unanswered draw is a wait, "not a
fault" (70_reset_and_hazards.md R214). -/
inductive Fault : Type
deriving DecidableEq, Repr

/-- Ways an instruction can be without a meaning. -/
inductive Refusal where
  /-- Raised by no arm: every operation of the table has its meaning. Safe: it would claim nothing. -/
  | notModelled (mnemonic : String)
deriving DecidableEq, Repr

/-- The state right after reset (R36): lengths 0, `STATUS` 0x00, every cell of `S` and `B` marked as holding no value
(its 8 bits are 0x00: DESIGN CHOICE, log entry 1), no operation in progress. The MODEL's fields are a DESIGN CHOICE:
nothing arrives, nothing was read, a live source is connected (log entries 1, 3, 4; the live source is unsafe to rest a
statement on). -/
def State.reset : State where
  S := Vector.replicate 16 Cell.empty
  SLEN := 0
  B := Vector.replicate 8 Cell.empty
  BLEN := 0
  STATUS := 0x00
  waiting := none
  events := []
  readings := []
  source := .live
  draws := 0
  reads := 0

end Sys2Proof.Machine
end

