-- ==== Sys2Proof/Machine/Flags.lean ====
section
/-! DEFINITION. The layout of `STATUS` (spec/30_encoding.md R85, R86) and the fields read from it. There are no other
flags (10_state.md R27). -/

namespace Sys2Proof.Machine

/-- The 4-bit code of an outcome (R86). -/
def faultCodeBits (f : FaultCode) : BitVec 4 :=
  match f with
  | .noFault => 0x0
  | .invalidPinLength => 0x1
  | .badDigit => 0x2
  | .badCount => 0x3
  | .illegalOp => 0x4
  | .decodeOverrun => 0x5

/-- `{0b000, MALF, FAULT}`, the whole of `STATUS` (R85). -/
def statusByte (malf : Bool) (f : FaultCode) : Byte :=
  0b000#3 ++ BitVec.ofBool malf ++ faultCodeBits f

/-- Field `FAULT` of a `STATUS` value, bits 3:0 (R85). -/
def statusFault (v : Byte) : BitVec 4 := v.extractLsb' 0 4

/-- Field `MALF` of a `STATUS` value, bit 4 (R85). -/
def statusMalf (v : Byte) : Bool := v.getLsbD 4

/-- The reserved field of a `STATUS` value, bits 7:5 (R85). -/
def statusReserved (v : Byte) : BitVec 3 := v.extractLsb' 5 3

/-- The values that `STATUS` can ever have (R86, 93_implementation_defined.md U12). -/
def legalStatus : List Byte := [0x00, 0x01, 0x02, 0x03, 0x04, 0x10, 0x15]

/-- The free one of them after access number `k` found a cell without a value in an operand (10_state.md R29; log
entry 2). -/
def freeStatus (k : Nat) : Byte := legalStatus.getD (Config.freeStatus k).val 0x00

end Sys2Proof.Machine
end

