-- ==== Sys2Proof/Machine/Operands.lean ====
section
/-! DEFINITION. The operand functions: nibbles and bytes, characters, the length predicate, the packer and the
unpacker as pure functions, and the reading of the operand cells. All arithmetic is unsigned and exact
(spec/43_bcd_pack_unpack.md R159). -/

namespace Sys2Proof.Machine

/-- `hi(b) = b[7:4]`, the high nibble (00_scope.md R8). -/
def hi (b : Byte) : Nibble := b.extractLsb' 4 4

/-- `lo(b) = b[3:0]`, the low nibble, "mask 0x0F" (00_scope.md R8). -/
def lo (b : Byte) : Nibble := b.extractLsb' 0 4

/-- `{h, l}`, the byte with high nibble `h` and low nibble `l` (00_scope.md R8). -/
def joinNibbles (h l : Nibble) : Byte := h ++ l

/-- `ceil2(n) = (n + 1) >> 1` (00_scope.md R9). -/
def ceil2 (n : Nat) : Nat := (n + 1) >>> 1

/-- `len_ok(n)`: the length validator, true exactly for 4 to 12 (40_length_validator.md R100). -/
def lenOk (n : Nat) : Bool := decide (Config.pinMin ≤ n) && decide (n ≤ Config.pinMax)

/-- `hexval(c)`: the value of a hex-digit character, digits and lower-case letters only (30_encoding.md R76; the codes
are PRESUMED, log entry 14, unsafe on a platform with other codes). -/
def hexval (c : Byte) : Option Nibble :=
  if 0x30 ≤ c.toNat ∧ c.toNat ≤ 0x39 then some (BitVec.ofNat 4 (c.toNat - 0x30))
  else if 0x61 ≤ c.toNat ∧ c.toNat ≤ 0x66 then some (BitVec.ofNat 4 (c.toNat - 0x61 + 10))
  else none

/-- `hexchar(v)`: the character of a nibble, lower case (30_encoding.md R77). -/
def hexchar (v : Nibble) : Byte :=
  if v.toNat ≤ 9 then BitVec.ofNat 8 (0x30 + v.toNat) else BitVec.ofNat 8 (0x61 + (v.toNat - 10))

/-- Does PACK accept the character: has it a value (43_bcd_pack_unpack.md R152)? -/
def isHex (c : Byte) : Bool := (hexval c).isSome

/-- `isdec(c)`: is the character a decimal digit (30_encoding.md R78)? -/
def isdec (c : Byte) : Bool := decide (0x30 ≤ c.toNat) && decide (c.toNat ≤ 0x39)

/-- The digit value `c - 0x30` of a decimal character (30_encoding.md R78). -/
def digitVal (c : Byte) : Nibble := BitVec.ofNat 4 (c.toNat - 0x30)

/-- `pack_nibbles`: two nibbles a byte, high nibble first, an odd last one padded with a zero nibble
(43_bcd_pack_unpack.md R150, R154). -/
def packNibbles : List Nibble → List Byte
  | [] => []
  | [h] => [joinNibbles h 0]
  | h :: l :: rest => joinNibbles h l :: packNibbles rest

/-- `unpack_nibbles`: each byte gives its high nibble, then its low nibble (43_bcd_pack_unpack.md R151). -/
def unpackNibbles : List Byte → List Nibble
  | [] => []
  | b :: rest => hi b :: lo b :: unpackNibbles rest

/-- The nibble values of a string of hex-digit characters, when every character has one (43_bcd_pack_unpack.md
R150). -/
def hexvals : List Byte → Option (List Nibble)
  | [] => some []
  | c :: rest =>
    match hexval c, hexvals rest with
    | some v, some vs => some (v :: vs)
    | _, _ => none

/-- `pack`: a hex-digit string to bytes, defined when every character is accepted (43_bcd_pack_unpack.md R150). -/
def pack (text : List Byte) : Option (List Byte) := (hexvals text).map packNibbles

/-- `unpack`: bytes to a string of hex-digit characters, two a byte (43_bcd_pack_unpack.md R151). -/
def unpack (bytes : List Byte) : List Byte := (unpackNibbles bytes).map hexchar

/-- The nibbles that ENCODE lays out before the fill: control, length, PIN digits (41_encode_assembler.md R111,
R113). -/
def pinHeader (pin : List Byte) : List Nibble :=
  Config.control :: BitVec.ofNat 4 pin.length :: pin.map digitVal

/-- `encode(pin, draws)`, the functional form of ENCODE (41_encode_assembler.md R121). -/
def encodePin (pin : List Byte) (draws : List Nibble) : List Byte := packNibbles (pinHeader pin ++ draws)

/-- `decode(b)` for the bytes that follow `B[0]` and the length `len`, the functional form of DECODE
(42_decode_extractor.md R140): unpack, then cut to the length, which drops the odd pad (R136). -/
def decodePin (len : Nat) (pinBytes : List Byte) : List Byte := (unpack pinBytes).take len

/-- An 8-byte block as one 64-bit word, `B[0]` in the most significant byte: a convention for presentation only
(20_memory.md R54). -/
def blockWord (bytes : List Byte) : BitVec 64 :=
  bytes.foldl (fun w b => (w <<< 8) ||| b.zeroExtend 64) 0

/-- The value that a cell holds, if the cell exists and holds one (10_state.md R28). -/
def cellContent (cell : Option Cell) : Option Byte :=
  match cell with
  | some c => if c.held then some c.value else none
  | none => none

/-- Does a cell hold a value (R28)? -/
def cellWritten (cell : Option Cell) : Bool := (cellContent cell).isSome

/-- What reading a cell gives: its value; a free value when it holds none (10_state.md R30; DESIGN CHOICE, log entry 1,
safe). -/
def cellValue (access index : Nat) (cell : Option Cell) : Byte :=
  (cellContent cell).getD (Config.freeByte access index)

/-- What is read now in cell `S[k]`. -/
def State.charAt (s : State) (k : Nat) : Byte := cellValue s.reads k s.S[k]?

/-- What is read now in cell `B[i]`. -/
def State.byteAt (s : State) (i : Nat) : Byte := cellValue s.reads i s.B[i]?

/-- The string operand `S[0..SLEN-1]` (10_state.md R21, R34). -/
def State.stringOperand (s : State) : List Byte := (List.range s.SLEN.toNat).map s.charAt

/-- The byte operand `B[0..BLEN-1]` (10_state.md R23, R34). -/
def State.bytesOperand (s : State) : List Byte := (List.range s.BLEN.toNat).map s.byteAt

/-- The PIN length a block declares, `L = lo(B[0])` (42_decode_extractor.md R131). -/
def State.blockLength (s : State) : Nat := (lo (s.byteAt 0)).toNat

/-- The bytes that hold the PIN, `B[1..ceil2(L)]` (42_decode_extractor.md R131). -/
def State.pinBytes (s : State) : List Byte :=
  (List.range (ceil2 s.blockLength)).map fun i => s.byteAt (1 + i)

/-- Does every cell that a scan of `cells` reads hold a value? The scan goes in order and ends at the first character
that is not accepted, so no cell after that one is read (43_bcd_pack_unpack.md R152, 41_encode_assembler.md R111:
`raise` in the loop ends the operation, 00_scope.md R10; 10_state.md R34). -/
def scanHeld (accepts : Byte → Bool) (cells : List (Option Byte)) : Bool :=
  match cells with
  | [] => true
  | none :: _ => false
  | some c :: rest => !accepts c || scanHeld accepts rest

/-- Do the cells of `S[0..SLEN-1]` that PACK or ENCODE reads, scanning for a character that it does not accept, all hold
values (10_state.md R29, R34)? -/
def State.stringHeld (accepts : Byte → Bool) (s : State) : Bool :=
  scanHeld accepts ((List.range s.SLEN.toNat).map fun k => cellContent s.S[k]?)

/-- Do the cells `B[0..BLEN-1]` that UNPACK reads all hold values (10_state.md R29, R34)? -/
def State.bytesHeld (s : State) : Bool := (List.range s.BLEN.toNat).all fun i => cellWritten s.B[i]?

/-- Do the cells that DECODE reads all hold values (10_state.md R29, R34): `B[0]`, and `B[1..ceil2(L)]` unless the length
nibble `L` is 13 or more, where `DecodeOverrun` comes before they are needed (42_decode_extractor.md R131)? The bytes
above are not read (R137). -/
def State.blockHeld (s : State) : Bool :=
  cellWritten s.B[0]? && (decide (Config.pinMax < s.blockLength) ||
    (List.range (ceil2 s.blockLength)).all fun i => cellWritten s.B[1 + i]?)

/-- Nibble index `p` of the byte buffer: in byte `p >> 1`, the high nibble when `p` is even, the low one when it is odd
(20_memory.md R51, R52); `none` where the cell does not exist or holds no value. -/
def State.blockNibble (s : State) (p : Nat) : Option Nibble :=
  (cellContent s.B[p >>> 1]?).map fun b => if p % 2 = 0 then hi b else lo b

end Sys2Proof.Machine
end

