-- ==== Sys2Proof/Machine/Ops.lean ====
section
/-! DEFINITION. The named operations over the registers: ending in a fault, completing into `B` or into `S`, drawing
fill nibbles, the free outcome where the spec defines none, reset. -/

namespace Sys2Proof.Machine

/-- The cell for a value, or for none. -/
def cellOf (value : Option Byte) : Cell :=
  match value with
  | some c => Cell.holding c
  | none => Cell.empty

/-- The byte buffer after an operation wrote `vals` from cell 0 up: a cell at or above the new length holds no value
(spec/10_state.md R39). -/
def fillB (vals : List Byte) : Vector Cell 8 :=
  #v[cellOf vals[0]?, cellOf vals[1]?, cellOf vals[2]?, cellOf vals[3]?, cellOf vals[4]?, cellOf vals[5]?,
    cellOf vals[6]?, cellOf vals[7]?]

/-- The string buffer after an operation wrote `vals` from cell 0 up: a cell at or above the new length holds no value
(spec/10_state.md R39). -/
def fillS (vals : List Byte) : Vector Cell 16 :=
  #v[cellOf vals[0]?, cellOf vals[1]?, cellOf vals[2]?, cellOf vals[3]?, cellOf vals[4]?, cellOf vals[5]?,
    cellOf vals[6]?, cellOf vals[7]?, cellOf vals[8]?, cellOf vals[9]?, cellOf vals[10]?, cellOf vals[11]?,
    cellOf vals[12]?, cellOf vals[13]?, cellOf vals[14]?, cellOf vals[15]?]

/-- TAKING AN EXCEPTION: `raise F` (60_exceptions.md R180). `STATUS` gets the code, with `MALF` set for
`DecodeOverrun` alone; nothing else is written. There is no handler, no saved state and no return operation (R180,
R181): the core is ready for the next command. -/
def State.raise (f : FaultCode) (s : State) : State :=
  { s with STATUS := statusByte (decide (f = .decodeOverrun)) f }

/-- An access was made that can find a cell without a value: the free values of the next one are others (10_state.md
R30). -/
def State.accessed (s : State) : State := { s with reads := s.reads + 1 }

/-- Completion without a result in a buffer: `STATUS <- 0x00` (40_length_validator.md R101). -/
def State.complete (s : State) : State := { s with STATUS := statusByte false .noFault }

/-- Completion into the byte side: `B` and `BLEN` get the result, `STATUS <- 0x00` (43_bcd_pack_unpack.md R152,
41_encode_assembler.md R111). -/
def State.completeB (bytes : List Byte) (s : State) : State :=
  { s with
    B := fillB bytes
    BLEN := BitVec.ofNat 4 bytes.length
    STATUS := statusByte false .noFault }

/-- Completion into the string side: `S` and `SLEN` get the result, `STATUS <- {0b000, malf, 0x0}`
(43_bcd_pack_unpack.md R153, 42_decode_extractor.md R131). -/
def State.completeS (text : List Byte) (malf : Bool) (s : State) : State :=
  { s with
    S := fillS text
    SLEN := BitVec.ofNat 5 text.length
    STATUS := statusByte malf .noFault }

/-- What a reserved command byte does: `IllegalOp`, reading no register (60_exceptions.md R174). -/
def State.illegalCommand (s : State) : State := s.raise .illegalOp

/-- The answers to `need` requests, in request order (41_encode_assembler.md R116); fewer when the source stops
answering. `count` requests were answered before. -/
def RandomSource.answers (src : RandomSource) (count need : Nat) : List Nibble :=
  match src with
  | .live => (List.range need).map fun j => Config.freeDraw (count + j)
  | .stub left => left.take need

/-- The source after it answered `n` requests (60_exceptions.md R192). -/
def RandomSource.after (src : RandomSource) (n : Nat) : RandomSource :=
  match src with
  | .live => .live
  | .stub left => .stub (left.drop n)

/-- Will the source answer `need` more requests (70_reset_and_hazards.md R206)? -/
def RandomSource.canAnswer (src : RandomSource) (need : Nat) : Bool :=
  match src with
  | .live => true
  | .stub left => decide (need ≤ left.length)

/-- The draws that an ENCODE gets which still needs `need` of them. -/
def State.drawn (s : State) (need : Nat) : List Nibble := s.source.answers s.draws need

/-- The random source gave `n` answers. -/
def State.afterDraws (s : State) (n : Nat) : State :=
  { s with source := s.source.after n, draws := s.draws + n }

/-- An ENCODE waits with the nibbles `N` assembled so far (10_state.md R33, 70_reset_and_hazards.md R214). -/
def State.wait (N : List Nibble) (s : State) : State := { s with waiting := some N }

/-- No operation is in progress any more: `N` is gone (10_state.md R33). -/
def State.endWait (s : State) : State := { s with waiting := none }

/-- The next event is taken; `rest` is still to come. -/
def State.takeEvent (rest : List Event) (s : State) : State := { s with events := rest }

/-- From the nibbles `N` assembled so far, draw the fill up to sixteen nibbles and pack them into `B`
(41_encode_assembler.md R111 steps 2 and 3). When a draw is not answered the operation is not over: the core waits
with what it has, and no register is written (70_reset_and_hazards.md R214, 20_memory.md R58; DESIGN CHOICE, log entry
5, safe). -/
def State.assemble (N : List Nibble) (s : State) : State :=
  let got := s.drawn (Config.blockNibbles - N.length)
  if N.length + got.length < Config.blockNibbles then
    (s.afterDraws got.length).wait (N ++ got)
  else
    ((s.afterDraws got.length).completeB (packNibbles (N ++ got))).endWait

/-- Only `STATUS` gets another value. -/
def State.setStatus (v : Byte) (s : State) : State := { s with STATUS := v }

/-- `n` free bytes of access number `k`. -/
def freeBytes (k n : Nat) : List Byte := (List.range n).map (Config.freeByte k)

/-- `n` free nibbles of access number `k`. -/
def freeNibbles (k n : Nat) : List Nibble := (freeBytes k n).map lo

/-- AN OPERATION READ A CELL THAT HOLDS NO VALUE: "the outcome of the operation is not defined" (10_state.md R29). It
ends all the same (70_reset_and_hazards.md R221), and the outcome is free: with any of the fault codes in `STATUS`, and
then nothing else written (60_exceptions.md R180), or with the completion given, whose contents are free too. DESIGN
CHOICE, log entry 2. -/
def State.openOutcome (s completed : State) : State :=
  if statusFault (freeStatus s.reads) = 0 then completed else s.accessed.setStatus (freeStatus s.reads)

/-- The free outcome of PACK: a completion gives `B` any number of any bytes (R29; log entry 2). -/
def State.openB (s : State) : State :=
  s.openOutcome ((s.accessed.completeB (freeBytes s.reads (Config.freeCount s.reads % 9))).setStatus
    (freeStatus s.reads))

/-- The free outcome of UNPACK and DECODE: a completion gives `S` any number of any characters (R29; log entry 2). -/
def State.openS (s : State) : State :=
  s.openOutcome ((s.accessed.completeS (freeBytes s.reads (Config.freeCount s.reads % 17)) false).setStatus
    (freeStatus s.reads))

/-- The free outcome of ENCODE: a completion gives `B` a block of any nibbles, after any number of draws up to the
`14-n` that 41_encode_assembler.md R117 allows; where the source does not answer, it waits for it like any ENCODE
(70_reset_and_hazards.md R214; R29; log entry 2). -/
def State.openEncode (s : State) : State :=
  s.openOutcome (s.accessed.assemble
    (freeNibbles s.reads (Config.blockNibbles - Config.freeCount s.reads % (15 - s.SLEN.toNat))))

/-- The reset input (70_reset_and_hazards.md R200, R202): the registers and the hidden state are as after reset, an
operation in progress is abandoned. The outside world is not reset: the random source is untouched (R203), and so are
the events still to come and what the host has read (DEDUCED, log entry 8, safe). -/
def State.resetCore (s : State) : State :=
  { State.reset with
    events := s.events
    readings := s.readings
    source := s.source
    draws := s.draws
    reads := s.reads }

end Sys2Proof.Machine
end

