-- ==== Sys2Proof/Machine/Assembler.lean ====
section
/-! DEFINITION. The PIN-block nibble assembler: ENCODE (spec/41_encode_assembler.md). -/

namespace Sys2Proof.Machine

/-- `ENCODE` (R111, R112): the length is tested before any character is looked at, the characters before any draw is
taken, and all draws are taken before `B` is written. When the length is good and
a cell that the scan of the characters reads holds no value the outcome is not defined, and free (10_state.md R29; log
entry 2): a character that is no digit before it is `BadDigit` all the same. -/
def execEncode (s : State) : Host.Outcome State Fault Refusal :=
  if lenOk s.SLEN.toNat then
    if s.stringHeld isdec then
      if s.stringOperand.all isdec then .next (s.assemble (pinHeader s.stringOperand))
      else .next (s.raise .badDigit)
    else .next s.openEncode
  else .next (s.raise .invalidPinLength)

end Sys2Proof.Machine
end

