-- ==== Sys2Proof/Machine/Extractor.lean ====
section
/-! DEFINITION. The PIN extractor: DECODE (spec/42_decode_extractor.md). -/

namespace Sys2Proof.Machine

/-- `DECODE` (R131): `BadCount` unless `BLEN = 8`, `DecodeOverrun` for a length nibble of 13 to 15, else the PIN of the
block, with `MALF` when the length nibble is outside [4,12] (R134, R141). The control nibble and the PIN nibbles are
not examined (R132, R133). When `BLEN = 8` and a cell that it reads holds no value the outcome is not defined,
and free (10_state.md R29; log entry 2). -/
def execDecode (s : State) : Host.Outcome State Fault Refusal :=
  if s.BLEN.toNat ≠ Config.blockBytes then .next (s.raise .badCount)
  else if s.blockHeld then
    if Config.pinMax < s.blockLength then .next (s.raise .decodeOverrun)
    else .next (s.completeS (decodePin s.blockLength s.pinBytes) (!lenOk s.blockLength))
  else .next s.openS

end Sys2Proof.Machine
end

