-- ==== Sys2Proof/Machine/Packer.lean ====
section
/-! DEFINITION. The packed-decimal packer and unpacker: PACK and UNPACK (spec/43_bcd_pack_unpack.md). -/

namespace Sys2Proof.Machine

/-- `PACK` (R152): `BadCount` for more than 16 characters, `BadDigit` for a character without a value, else
`B = pack(S[0..SLEN-1])`. When a cell that the scan of the characters reads holds no value the outcome is not
defined, and free (10_state.md R29; log entry 2): a bad character before it is `BadDigit` all the same. -/
def execPack (s : State) : Host.Outcome State Fault Refusal :=
  if Config.scap < s.SLEN.toNat then .next (s.raise .badCount)
  else if s.stringHeld isHex then
    match pack s.stringOperand with
    | none => .next (s.raise .badDigit)
    | some bytes => .next (s.completeB bytes)
  else .next s.openB

/-- `UNPACK` (R153): `BadCount` for more than 8 bytes, else `S = unpack(B[0..BLEN-1])`. When one
of the `BLEN` cells holds no value the outcome is not defined, and free (10_state.md R29; log entry 2). -/
def execUnpack (s : State) : Host.Outcome State Fault Refusal :=
  if Config.bcap < s.BLEN.toNat then .next (s.raise .badCount)
  else if s.bytesHeld then .next (s.completeS (unpack s.bytesOperand) false)
  else .next s.openS

end Sys2Proof.Machine
end

