-- ==== Sys2Proof/Machine/Validator.lean ====
section
/-! DEFINITION. The length validator: CHKLEN (spec/40_length_validator.md). -/

namespace Sys2Proof.Machine

/-- `CHKLEN` (R101): test `SLEN` and write `STATUS`; no cell is read. -/
def execChklen (s : State) : Host.Outcome State Fault Refusal :=
  if lenOk s.SLEN.toNat then .next s.complete
  else .next (s.raise .invalidPinLength)

end Sys2Proof.Machine
end

