-- ==== Sys2Proof/Machine/HostPort.lean ====
section
/-! DEFINITION. What arrives from outside the core: host accesses to registers, reset, the random source; and the
core while an ENCODE waits for the random source. -/

namespace Sys2Proof.Machine

/-- A host access to one register (spec/10_state.md R35). A write stores what is written, legal or not (R22, R24), and
gives a cell its value whatever the length is (R28); a write to `STATUS` is ignored (R25). A read changes no register
(20_memory.md R59). -/
def State.hostAccess (a : HostAccess) (s : State) : State :=
  match a with
  | .writeS k c => { s with S := s.S.set k.val (Cell.holding c) }
  | .writeSLEN n => { s with SLEN := n }
  | .writeB i b => { s with B := s.B.set i.val (Cell.holding b) }
  | .writeBLEN m => { s with BLEN := m }
  | .writeSTATUS _ => s
  | .readS k => { s.accessed with readings := s.readings ++ [.ofS k (s.charAt k.val)] }
  | .readSLEN => { s with readings := s.readings ++ [.ofSLEN s.SLEN] }
  | .readB i => { s.accessed with readings := s.readings ++ [.ofB i (s.byteAt i.val)] }
  | .readBLEN => { s with readings := s.readings ++ [.ofBLEN s.BLEN] }
  | .readSTATUS => { s with readings := s.readings ++ [.ofSTATUS s.STATUS] }

/-- Another random source is connected, or the source has come to have answers (70_reset_and_hazards.md R206). -/
def State.connectSource (src : RandomSource) (s : State) : State := { s with source := src }

/-- Is an event held off while an operation is in progress? The host's accesses and commands are, "until the step is
over" (70_reset_and_hazards.md R211, R214; DEDUCED, log entry 7). The reset input and the platform's random source are
not. -/
def Event.heldOff (e : Event) : Bool :=
  match e with
  | .access _ => true
  | .command _ => true
  | .reset => false
  | .connect _ => false

/-- What the core does next while an ENCODE waits with the nibbles `N`: go on as soon as the source answers; else take
the first reset, which abandons the operation (70_reset_and_hazards.md R202, R214), or the first connection of a
source, whatever accesses and commands are held off before it: those stay, to be served in their order when the
operation is over (R211). With neither to come the state stays as it is: the core is stuck, which is neither a fault
nor a completion (R214; DESIGN CHOICE, log entry 5, safe; DEDUCED, log entry 7, unsafe for a platform that does not
hold the host off). -/
def State.stepWaiting (N : List Nibble) (s : State) : State :=
  if s.source.canAnswer 1 then s.assemble N
  else
    match s.events.dropWhile Event.heldOff with
    | .reset :: rest => (s.takeEvent (s.events.takeWhile Event.heldOff ++ rest)).resetCore
    | .connect src :: rest => (s.takeEvent (s.events.takeWhile Event.heldOff ++ rest)).connectSource src
    | _ => s

/-- A command byte arrives as the next event: the input the step decodes (10_state.md R26; DESIGN CHOICE, log
entry 10, safe). -/
def State.presentCommand (cmd : Byte) (s : State) : State :=
  { s with waiting := none, events := .command cmd :: s.events }

end Sys2Proof.Machine
end

