-- ==== Sys2Proof/Machine/Step.lean ====
section
/-! DEFINITION. One step of the machine: the next event of the outside world is taken and served whole
(spec/10_state.md R31, 20_memory.md R60). -/

namespace Sys2Proof.Machine

/-- A command byte is presented: decode it and run the operation, or raise `IllegalOp` (30_encoding.md R71, R73). -/
def runCommand (cmd : Byte) (s : State) : Host.Outcome State Fault Refusal :=
  match decode cmd with
  | .instr i => exec i s
  | .illegalOp _ => .next s.illegalCommand

/-- Serve one event, already taken from the list. -/
def serve (e : Event) (s : State) : Host.Outcome State Fault Refusal :=
  match e with
  | .access a => .next (s.hostAccess a)
  | .command cmd => runCommand cmd s
  | .reset => .next s.resetCore
  | .connect src => .next (s.connectSource src)

/-- One step: an ENCODE in progress goes on or waits; otherwise the next event is served; with nothing to do the core
is idle (60_exceptions.md R193). -/
def step (s : State) : Host.Outcome State Fault Refusal :=
  match s.waiting with
  | some N => .next (s.stepWaiting N)
  | none =>
    match s.events with
    | [] => .next s
    | e :: rest => serve e (s.takeEvent rest)

/-- The state with the given command byte as the next event, so that the very next step runs it (log entry 10). -/
def State.withFetchWord (s : State) (nbits w : Nat) : State := s.presentCommand (commandByte nbits w)

end Sys2Proof.Machine
end

