-- ==== Sys2Proof/Safety.lean ====
section
/-! DEFINITION. The words that claims are stated in: what a buffer holds, what the host owes before a command, the
invariant of the machine. -/

namespace Sys2Proof.Machine

/-- A cell that exists and "holds no value" (spec/10_state.md R28), whatever its 8 bits are. -/
abbrev HoldsNoValue (cell : Option Cell) : Prop := cell.map Cell.held = some false

/-- `S` and `SLEN` hold the string `text`: every cell below the length is written (spec/10_state.md R21). -/
def State.HoldsString (s : State) (text : List Byte) : Prop :=
  s.SLEN.toNat = text.length ∧ ∀ (k : Nat) (c : Byte), text[k]? = some c → s.S[k]? = some (Cell.holding c)

/-- `B` and `BLEN` hold the byte array `bytes`: every cell below the length is written (10_state.md R23). -/
def State.HoldsBytes (s : State) (bytes : List Byte) : Prop :=
  s.BLEN.toNat = bytes.length ∧ ∀ (i : Nat) (b : Byte), bytes[i]? = some b → s.B[i]? = some (Cell.holding b)

/-- Every character of the string operand has a value, as PACK reads it (43_bcd_pack_unpack.md R152). -/
def State.AllHex (s : State) : Prop := ∀ k, k < s.SLEN.toNat → (hexval (s.charAt k)).isSome

/-- Every character of the string operand is a decimal digit, as ENCODE reads it (41_encode_assembler.md R111). -/
def State.AllDec (s : State) : Prop := ∀ k, k < s.SLEN.toNat → isdec (s.charAt k) = true

/-- The first `n` cells of `S` are written: with `n = SLEN`, the string operand of PACK and ENCODE (10_state.md R34). -/
def State.StringWritten (s : State) (n : Nat) : Prop := ∀ k : Nat, k < n → cellWritten s.S[k]? = true

/-- The cells that a scan of the string operand reads are written: every cell of `S[0..SLEN-1]` before which all hold
characters that are accepted (43_bcd_pack_unpack.md R152, 41_encode_assembler.md R111, 10_state.md R34). -/
def State.ScanWritten (s : State) (accepts : Byte → Bool) : Prop :=
  ∀ k : Nat, k < s.SLEN.toNat → (∀ j : Nat, j < k → ∃ c, s.S[j]? = some (Cell.holding c) ∧ accepts c = true) →
    cellWritten s.S[k]? = true

/-- The first `n` cells of `B` are written: the operand of UNPACK (10_state.md R29, R34). -/
def State.BytesWritten (s : State) (n : Nat) : Prop := ∀ i : Nat, i < n → cellWritten s.B[i]? = true

/-- The cells that DECODE reads are written: `B[0]`, and `B[1..ceil2(L)]` for a length nibble `L` up to 12 (10_state.md
R29, R34, 42_decode_extractor.md R131). -/
def State.BlockWritten (s : State) : Prop :=
  s.BytesWritten 1 ∧ (s.blockLength ≤ 12 → s.BytesWritten (1 + (s.blockLength + 1) / 2))

/-- The cells that an operation reads are written, if its length lets it read any: outside this the spec defines no
outcome (10_state.md R29, R34, 70_reset_and_hazards.md R205). -/
def State.OperandWritten (s : State) (i : Instr) : Prop :=
  match i with
  | .pack => s.SLEN.toNat ≤ 16 → s.ScanWritten isHex
  | .unpack => s.BLEN.toNat ≤ 8 → s.BytesWritten s.BLEN.toNat
  | .encode => 4 ≤ s.SLEN.toNat → s.SLEN.toNat ≤ 12 → s.ScanWritten isdec
  | .decode => s.BLEN = 8 → s.BlockWritten
  | .chklen => True

/-- Is an event an access or a command of the host, which a platform holds off while an operation is in progress
(70_reset_and_hazards.md R211)? -/
def Event.FromHost (e : Event) : Prop := (∃ a, e = .access a) ∨ ∃ cmd, e = .command cmd

/-- What the host owes before a command (70_reset_and_hazards.md R205, R206): the cells the operation will read are
written and the random source will answer. -/
def State.hostReady (i : Instr) (s : State) : Bool :=
  match i with
  | .pack => (List.range s.SLEN.toNat).all fun k => cellWritten s.S[k]?
  | .unpack => (List.range s.BLEN.toNat).all fun k => cellWritten s.B[k]?
  | .encode => ((List.range s.SLEN.toNat).all fun k => cellWritten s.S[k]?) &&
      s.source.canAnswer (14 - s.SLEN.toNat)
  | .decode => decide (s.BLEN = 8) && (List.range 8).all fun k => cellWritten s.B[k]?
  | .chklen => true

/-- Two states whose first `n` cells of `S` are the same. -/
def State.SameString (s : State) (n : Nat) (s' : State) : Prop := ∀ k : Nat, k < n → s.S[k]? = s'.S[k]?

/-- Two states whose first `n` cells of `B` are the same. -/
def State.SameBytes (s : State) (n : Nat) (s' : State) : Prop := ∀ i : Nat, i < n → s.B[i]? = s'.B[i]?

/-- Two states with the same source operand of an operation, and for ENCODE the same random source (00_scope.md R13):
the same length, and the same cells wherever that length lets the operation read the buffer (10_state.md R34). -/
def State.SameOperand (s : State) (i : Instr) (s' : State) : Prop :=
  match i with
  | .pack => s.SLEN = s'.SLEN ∧ (s.SLEN.toNat ≤ 16 → s.SameString s.SLEN.toNat s')
  | .unpack => s.BLEN = s'.BLEN ∧ (s.BLEN.toNat ≤ 8 → s.SameBytes s.BLEN.toNat s')
  | .encode => s.SLEN = s'.SLEN ∧ (lenOk s.SLEN.toNat = true → s.SameString s.SLEN.toNat s') ∧
      s.source = s'.source ∧ s.draws = s'.draws
  | .decode => s.BLEN = s'.BLEN ∧ (s.BLEN.toNat = 8 → s.SameBytes 8 s')
  | .chklen => s.SLEN = s'.SLEN

/-- How many draws an operation in progress still needs (41_encode_assembler.md R117); 0 when none is in progress. -/
def State.drawsNeeded (s : State) : Nat :=
  match s.waiting with
  | some N => 16 - N.length
  | none => 0

/-- What a waiting ENCODE has assembled (41_encode_assembler.md R111, 10_state.md R33): fewer than sixteen nibbles, for a
legal length, and, when the cells of its string are written, the control nibble, the length nibble and the digits of the
string in `S`. (Otherwise R29 leaves open what they are.) -/
def State.WaitingOk (s : State) : Prop :=
  ∀ N, s.waiting = some N →
    lenOk s.SLEN.toNat = true ∧ 2 + s.SLEN.toNat ≤ N.length ∧ N.length < 16 ∧
    (s.StringWritten s.SLEN.toNat →
      N[0]? = some 1 ∧ N[1]? = some (BitVec.ofNat 4 s.SLEN.toNat) ∧
      ∀ k : Nat, k < s.SLEN.toNat → ∃ c, s.S[k]? = some (Cell.holding c) ∧
        isdec c = true ∧ ∃ v, N[2 + k]? = some v ∧ v.toNat + 0x30 = c.toNat)

/-- THE INVARIANT: `STATUS` has one of its seven values, and an ENCODE in progress waits with a sound part of its
block. -/
def State.Inv (s : State) : Prop := s.STATUS ∈ legalStatus ∧ s.WaitingOk

end Sys2Proof.Machine
end

