-- ==== Sys2Proof/Machine/Script.lean ====
section
/-! DEFINITION. The notation for programs of spec/30_encoding.md R87: each line of a host script as the events it
stands for. -/

namespace Sys2Proof.Machine

/-- One line of a host script (R87). -/
inductive ScriptLine where
  | ws (text : List Byte)
  | wslen (n : BitVec 5)
  | wb (bytes : List Byte)
  | wblen (m : BitVec 4)
  | op (i : Instr)
  | encodeWith (draws : List Nibble)
  | cmd (b : Byte)
  | rs
  | rb
  | rstat
deriving DecidableEq, Repr

/-- Writes of `vals` to the cells of `S` from 0 up. -/
def writesS (vals : List Byte) : List Event :=
  ((List.finRange 16).zip vals).map fun p => .access (.writeS p.1 p.2)

/-- Writes of `vals` to the cells of `B` from 0 up. -/
def writesB (vals : List Byte) : List Event :=
  ((List.finRange 8).zip vals).map fun p => .access (.writeB p.1 p.2)

/-- The events of a script line (R87): `WS` and `WB` write the cells first and the length last; `RS` and `RB` read as
many cells as the length register says, so they depend on the state they are used in (cells that do not exist are
left out: DESIGN CHOICE, log entry 16, safe). -/
def lineEvents (l : ScriptLine) (s : State) : List Event :=
  match l with
  | .ws text => writesS text ++ [.access (.writeSLEN (BitVec.ofNat 5 text.length))]
  | .wslen n => [.access (.writeSLEN n)]
  | .wb bytes => writesB bytes ++ [.access (.writeBLEN (BitVec.ofNat 4 bytes.length))]
  | .wblen m => [.access (.writeBLEN m)]
  | .op i => [.command (encode i)]
  | .encodeWith draws => [.connect (.stub draws), .command (encode .encode)]
  | .cmd b => [.command b]
  | .rs => .access .readSLEN ::
      ((List.finRange 16).filter fun k => decide (k.val < s.SLEN.toNat)).map fun k => .access (.readS k)
  | .rb => .access .readBLEN ::
      ((List.finRange 8).filter fun i => decide (i.val < s.BLEN.toNat)).map fun i => .access (.readB i)
  | .rstat => [.access .readSTATUS]

/-- The host goes on with a script line: its events arrive after those already on their way. -/
def State.enqueue (l : ScriptLine) (s : State) : State := { s with events := s.events ++ lineEvents l s }

end Sys2Proof.Machine
end

