-- ==== Sys2Proof/WellFormed.lean ====
section
/-! DEFINITION. Well-formed commands and well-formed script lines. An operation has no operand (spec/30_encoding.md
R70), so every term of `Instr` is well formed; what can be ill formed is the command byte and a line of a host
script. -/

namespace Sys2Proof

/-- Every operation is well formed: it has no field that could be out of range (R70). -/
def Instr.wf (i : Instr) : Bool :=
  match i with
  | .pack => true
  | .unpack => true
  | .encode => true
  | .decode => true
  | .chklen => true

/-- A command byte selects an operation only if `RSV` is 0 and `OP` is 1 to 5 (R70, R71). -/
def commandWf (cmd : Byte) : Bool :=
  decide (cmdRsv cmd = 0) && decide (1 ≤ (cmdOp cmd).toNat) && decide ((cmdOp cmd).toNat ≤ 5)

/-- A script line is well formed when the cells it writes exist (20_memory.md R51, R64) and `ENCODE [..]` is given as
many draws as an ENCODE can use (41_encode_assembler.md R115). -/
def lineWf (l : Machine.ScriptLine) : Bool :=
  match l with
  | .ws text => decide (text.length ≤ Config.scap)
  | .wb bytes => decide (bytes.length ≤ Config.bcap)
  | .encodeWith draws => decide (draws.length ≤ 10)
  | .wslen _ | .wblen _ | .op _ | .cmd _ | .rs | .rb | .rstat => true

end Sys2Proof
end

