-- ==== Sys2Proof/Certificates/Slice0/Obligations.lean ====
section
/-! DEFINITION. The statements for the provers. What an operation leaves that read a cell without a value is not defined
by the spec (10_state.md R29) and free in the model (log entry 2). So a statement of an operation's own result has the
premise that the cells it reads are written, and a statement without that premise holds whatever the free values are.
PACK and ENCODE scan their characters in order and read none after one that they do not accept
(43_bcd_pack_unpack.md R152, 41_encode_assembler.md R111). The fields `events`, `readings`, `source`, `draws` and
`reads` are the model's own; `reads` and `draws` are never given a number, `reads := t.reads` only says that the
counter is free to move. -/

open Sys2Proof Sys2Proof.Machine

/-! ### Encodings -/

/-- 30_encoding.md R72: the five command bytes; and the reserved bytes of 95_test_vectors.md 2.6. -/
def Obligations.DecodeReadsSpecBytes : Prop :=
  decode 0x01 = .instr .pack ∧ decode 0x02 = .instr .unpack ∧ decode 0x03 = .instr .encode ∧
  decode 0x04 = .instr .decode ∧ decode 0x05 = .instr .chklen ∧
  decode 0x00 = .illegalOp 0x00 ∧ decode 0x06 = .illegalOp 0x06 ∧ decode 0x07 = .illegalOp 0x07 ∧
  decode 0x08 = .illegalOp 0x08 ∧ decode 0x09 = .illegalOp 0x09 ∧ decode 0x0b = .illegalOp 0x0b ∧
  decode 0x81 = .illegalOp 0x81 ∧ decode 0xff = .illegalOp 0xff

/-- 30_encoding.md R71: a byte selects an operation exactly if bits 7:3 are 0 and bits 2:0 are one of the five codes. -/
def Obligations.OnlyFiveBytesSelect : Prop :=
  ∀ cmd : Byte, (∃ i, decode cmd = .instr i) ↔
    cmd.toNat / 8 = 0 ∧ 1 ≤ cmd.toNat % 8 ∧ cmd.toNat % 8 ≤ 5

/-- 30_encoding.md R70, R72: the decoder inverts the encoder on every well-formed operation, and no other byte decodes
to it. -/
def Obligations.EncodeDecodeRoundTrip : Prop :=
  ∀ i : Instr, i.wf = true → decode (encode i) = .instr i ∧ commandWf (encode i) = true ∧
    ∀ cmd, decode cmd = .instr i → cmd = encode i

/-- 00_scope.md R8: high nibble, low nibble and `{h, l} = 16*h + l`. -/
def Obligations.NibblesOfAByte : Prop :=
  (∀ b : Byte, (hi b).toNat = b.toNat / 16 ∧ (lo b).toNat = b.toNat % 16) ∧
  ∀ h l : Nibble, (joinNibbles h l).toNat = 16 * h.toNat + l.toNat

/-- 30_encoding.md R76, R77, R78: the three character functions. -/
def Obligations.CharacterFunctions : Prop :=
  (∀ c : Byte,
    (0x30 ≤ c.toNat ∧ c.toNat ≤ 0x39 → ∃ v, hexval c = some v ∧ v.toNat = c.toNat - 0x30) ∧
    (0x61 ≤ c.toNat ∧ c.toNat ≤ 0x66 → ∃ v, hexval c = some v ∧ v.toNat = c.toNat - 0x61 + 10) ∧
    (¬(0x30 ≤ c.toNat ∧ c.toNat ≤ 0x39) → ¬(0x61 ≤ c.toNat ∧ c.toNat ≤ 0x66) → hexval c = none)) ∧
  (∀ v : Nibble,
    (v.toNat ≤ 9 → (hexchar v).toNat = 0x30 + v.toNat) ∧
    (10 ≤ v.toNat → (hexchar v).toNat = 0x61 + (v.toNat - 10)) ∧
    hexval (hexchar v) = some v) ∧
  ∀ c : Byte, (isdec c = true ↔ 0x30 ≤ c.toNat ∧ c.toNat ≤ 0x39) ∧
    (isdec c = true → hexval c = some (digitVal c) ∧ (digitVal c).toNat = c.toNat - 0x30)

/-- 43_bcd_pack_unpack.md R150: what `pack_nibbles` puts where, the zero pad of an odd length, and `pack` of a
string, defined only when every character has a value. -/
def Obligations.PackNibblesRule : Prop :=
  (∀ v : List Nibble, (packNibbles v).length = (v.length + 1) / 2 ∧
    ∀ i, i < (v.length + 1) / 2 → ∃ b, (packNibbles v)[i]? = some b ∧ v[2 * i]? = some (hi b) ∧
      (2 * i + 1 < v.length → v[2 * i + 1]? = some (lo b)) ∧ (2 * i + 1 = v.length → lo b = 0)) ∧
  ∀ (text bytes : List Byte), pack text = some bytes ↔
    ∃ v : List Nibble, v.length = text.length ∧
      (∀ (k : Nat) (c : Byte), text[k]? = some c → hexval c = v[k]?) ∧ bytes = packNibbles v

/-- 43_bcd_pack_unpack.md R151: what `unpack_nibbles` and `unpack` give, for every byte sequence. -/
def Obligations.UnpackNibblesRule : Prop :=
  ∀ bytes : List Byte, (unpackNibbles bytes).length = 2 * bytes.length ∧
    (unpack bytes).length = 2 * bytes.length ∧
    ∀ (i : Nat) (b : Byte), bytes[i]? = some b →
      (unpackNibbles bytes)[2 * i]? = some (hi b) ∧ (unpackNibbles bytes)[2 * i + 1]? = some (lo b) ∧
      (unpack bytes)[2 * i]? = some (hexchar (hi b)) ∧ (unpack bytes)[2 * i + 1]? = some (hexchar (lo b))

/-- 43_bcd_pack_unpack.md R156 (a), (b), (c): the inverse laws on sequences of any length, and in register terms. -/
def Obligations.PackerInverseLaws : Prop :=
  (∀ bytes : List Byte, pack (unpack bytes) = some bytes) ∧
  (∀ text bytes : List Byte, pack text = some bytes →
    (text.length % 2 = 0 → unpack bytes = text) ∧ (text.length % 2 = 1 → unpack bytes = text ++ [0x30])) ∧
  (∀ s : State, s.BLEN.toNat ≤ 8 → s.BytesWritten s.BLEN.toNat → ∃ t u, exec .unpack s = .next t ∧ exec .pack t = .next u ∧
    u.BLEN = s.BLEN ∧ ∀ i, i < s.BLEN.toNat → u.B[i]? = some (Cell.holding (s.byteAt i))) ∧
  ∀ s : State, s.SLEN.toNat ≤ 16 → s.StringWritten s.SLEN.toNat → s.AllHex →
    ∃ t u, exec .pack s = .next t ∧ exec .unpack t = .next u ∧
    u.SLEN.toNat = s.SLEN.toNat + s.SLEN.toNat % 2 ∧
    (∀ k, k < s.SLEN.toNat → u.S[k]? = some (Cell.holding (s.charAt k))) ∧
    (s.SLEN.toNat % 2 = 1 → u.S[s.SLEN.toNat]? = some (Cell.holding 0x30))

/-! ### How the machine steps -/

/-- 10_state.md R31, R32 and R26: a command byte presented to an idle core is decoded, and the step is the operation's
own meaning on the state without that event; no program counter, nothing else. The second clause is about
`State.withFetchWord`, the model's own way to present a command (log entry 10, DESIGN CHOICE): it puts the byte first
and ends a wait, which the spec's core does only at reset (70_reset_and_hazards.md R214). -/
def Obligations.StepRunsDecodedCommand : Prop :=
  (∀ (s : State) (cmd : Byte) (rest : List Event) (i : Instr),
    s.waiting = none → s.events = .command cmd :: rest → decode cmd = .instr i →
      step s = exec i { s with events := rest }) ∧
  ∀ (s : State) (nbits w : Nat) (i : Instr), decodeTableWord nbits w = some i →
    step (s.withFetchWord nbits w) = exec i { s with waiting := none }

/-- 30_encoding.md R73, 60_exceptions.md R174: each of the 251 reserved bytes writes `IllegalOp` to `STATUS` and
changes nothing else; 0x00 is no no-op. -/
def Obligations.ReservedCommandIsIllegalOp : Prop :=
  (∀ cmd : Byte, decode cmd = .illegalOp cmd ↔ ¬(1 ≤ cmd.toNat ∧ cmd.toNat ≤ 5)) ∧
  ∀ (s : State) (cmd : Byte), ¬(1 ≤ cmd.toNat ∧ cmd.toNat ≤ 5) →
    runCommand cmd s = .next { s with STATUS := 0x04 } ∧
    ∀ rest, s.waiting = none → s.events = .command cmd :: rest →
      step s = .next { s with events := rest, STATUS := 0x04 }

/-- An idle core without a command stays as it is. 60_exceptions.md R193 says that idle "is simply the absence of a
command"; that there is a step then, and that it answers the same state, is the model's choice (log entry 3, DESIGN
CHOICE: the spec knows a step only for a command, 10_state.md R31). -/
def Obligations.IdleCoreStays : Prop :=
  ∀ s : State, s.waiting = none → s.events = [] → step s = .next s

/-- 70_reset_and_hazards.md R221: PACK, UNPACK, DECODE, CHKLEN and every reserved command end in one step, on every
state; ENCODE ends if and only if each of its draw requests is answered, and one that faults makes none. How many
requests an ENCODE makes that reads a cell without a value is not defined (10_state.md R29, 70_reset_and_hazards.md
R205), so there the cells are written; that it ends whenever `14-n` requests are answered holds of every ENCODE. -/
def Obligations.CommandsEnd : Prop :=
  (∀ (i : Instr) (s : State), i ≠ .encode → ∃ t, exec i s = .next t ∧ t.waiting = s.waiting) ∧
  (∀ (cmd : Byte) (s : State), ¬(1 ≤ cmd.toNat ∧ cmd.toNat ≤ 5) →
    ∃ t, runCommand cmd s = .next t ∧ t.waiting = s.waiting) ∧
  ∀ s : State, s.waiting = none → ∃ t, exec .encode s = .next t ∧
    (s.source.canAnswer (14 - s.SLEN.toNat) = true → t.waiting = none) ∧
    (s.OperandWritten .encode → (t.waiting = none ↔
      (4 ≤ s.SLEN.toNat ∧ s.SLEN.toNat ≤ 12 → s.AllDec → s.source.canAnswer (14 - s.SLEN.toNat) = true)))

/-! ### The operations -/

/-- 10_state.md R21, R23, R29, R34: an operation reads a written cell as it was written. -/
def Obligations.WrittenCellsReadAsWritten : Prop :=
  ∀ s : State,
    (∀ (k : Nat) (c : Byte), s.S[k]? = some (Cell.holding c) → s.charAt k = c) ∧
    (∀ (i : Nat) (b : Byte), s.B[i]? = some (Cell.holding b) → s.byteAt i = b) ∧
    (∀ text, s.HoldsString text → s.stringOperand = text) ∧
    ∀ bytes, s.HoldsBytes bytes → s.bytesOperand = bytes

/-- 40_length_validator.md R100, R101: CHKLEN, whole. -/
def Obligations.ChklenOperation : Prop :=
  (∀ n : Nat, lenOk n = true ↔ 4 ≤ n ∧ n ≤ 12) ∧ encode .chklen = 0x05 ∧
  ∀ s : State,
    (4 ≤ s.SLEN.toNat ∧ s.SLEN.toNat ≤ 12 → exec .chklen s = .next { s with STATUS := 0x00 }) ∧
    (s.SLEN.toNat < 4 ∨ 12 < s.SLEN.toNat → exec .chklen s = .next { s with STATUS := 0x01 })

/-- 43_bcd_pack_unpack.md R152: PACK, whole: its two faults in their order, and its result. A character without a value
is `BadDigit` whatever stands after it, a cell without a value included (10_state.md R34). -/
def Obligations.PackOperation : Prop :=
  encode .pack = 0x01 ∧ ∀ s : State,
    (16 < s.SLEN.toNat → exec .pack s = .next { s with STATUS := 0x03 }) ∧
    (∀ (k : Nat) (c : Byte), s.SLEN.toNat ≤ 16 → k < s.SLEN.toNat → s.StringWritten k →
      s.S[k]? = some (Cell.holding c) → hexval c = none → exec .pack s = .next { s with STATUS := 0x02 }) ∧
    (s.SLEN.toNat ≤ 16 → s.StringWritten s.SLEN.toNat → s.AllHex →
      ∃ t, exec .pack s = .next t ∧
        t = { s with B := t.B, BLEN := t.BLEN, STATUS := 0x00 } ∧
        t.BLEN.toNat = (s.SLEN.toNat + 1) / 2 ∧
        (∀ i, i < (s.SLEN.toNat + 1) / 2 → ∃ b, t.B[i]? = some (Cell.holding b) ∧
          hexval (s.charAt (2 * i)) = some (hi b) ∧
          (2 * i + 1 < s.SLEN.toNat → hexval (s.charAt (2 * i + 1)) = some (lo b)) ∧
          (2 * i + 1 = s.SLEN.toNat → lo b = 0)) ∧
        ∀ i, (s.SLEN.toNat + 1) / 2 ≤ i → i < 8 → HoldsNoValue t.B[i]?)

/-- 43_bcd_pack_unpack.md R153: UNPACK, whole: its fault and its result. -/
def Obligations.UnpackOperation : Prop :=
  encode .unpack = 0x02 ∧ ∀ s : State,
    (8 < s.BLEN.toNat → exec .unpack s = .next { s with STATUS := 0x03 }) ∧
    (s.BLEN.toNat ≤ 8 → s.BytesWritten s.BLEN.toNat →
      ∃ t, exec .unpack s = .next t ∧
        t = { s with S := t.S, SLEN := t.SLEN, STATUS := 0x00 } ∧
        t.SLEN.toNat = 2 * s.BLEN.toNat ∧
        (∀ i, i < s.BLEN.toNat →
          t.S[2 * i]? = some (Cell.holding (hexchar (hi (s.byteAt i)))) ∧
          t.S[2 * i + 1]? = some (Cell.holding (hexchar (lo (s.byteAt i))))) ∧
        ∀ k, 2 * s.BLEN.toNat ≤ k → k < 16 → HoldsNoValue t.S[k]?)

/-- 41_encode_assembler.md R111, R112, R113: ENCODE, whole: its two faults in their order, before any draw, and, when
the source answers, its block, nibble by nibble. A character that is no digit is `BadDigit` whatever stands after it,
a cell without a value included (10_state.md R34). -/
def Obligations.EncodeOperation : Prop :=
  encode .encode = 0x03 ∧ ∀ s : State,
    (s.SLEN.toNat < 4 ∨ 12 < s.SLEN.toNat → exec .encode s = .next { s with STATUS := 0x01 }) ∧
    (∀ (k : Nat) (c : Byte), 4 ≤ s.SLEN.toNat → s.SLEN.toNat ≤ 12 → k < s.SLEN.toNat → s.StringWritten k →
      s.S[k]? = some (Cell.holding c) → isdec c = false → exec .encode s = .next { s with STATUS := 0x02 }) ∧
    (4 ≤ s.SLEN.toNat → s.SLEN.toNat ≤ 12 → s.StringWritten s.SLEN.toNat → s.AllDec →
      s.source.canAnswer (14 - s.SLEN.toNat) = true →
      ∃ t, exec .encode s = .next t ∧
        t = { s with
          B := t.B, BLEN := 8, STATUS := 0x00, waiting := none
          source := s.source.after (14 - s.SLEN.toNat), draws := s.draws + (14 - s.SLEN.toNat) } ∧
        t.blockNibble 0 = some 1 ∧
        (∃ v, t.blockNibble 1 = some v ∧ v.toNat = s.SLEN.toNat) ∧
        (∀ k, k < s.SLEN.toNat → ∃ v, t.blockNibble (2 + k) = some v ∧
          v.toNat = (s.charAt k).toNat - 0x30) ∧
        ∀ j, j < 14 - s.SLEN.toNat → ∃ v, t.blockNibble (2 + s.SLEN.toNat + j) = some v ∧
          (s.drawn (14 - s.SLEN.toNat))[j]? = some v)

/-- 60_exceptions.md R192 and 41_encode_assembler.md R118: with a stub that answers `v0, v1, ...` draw `j` is `vj`, the
stub keeps the answers after the `14-n` of this ENCODE; so every list of draws is possible. -/
def Obligations.EncodeTakesStubAnswersInOrder : Prop :=
  ∀ (s : State) (answers : List Nibble),
    4 ≤ s.SLEN.toNat → s.SLEN.toNat ≤ 12 → s.StringWritten s.SLEN.toNat → s.AllDec → s.source = .stub answers →
    14 - s.SLEN.toNat ≤ answers.length →
      ∃ t, exec .encode s = .next t ∧ t.STATUS = 0x00 ∧
        t.source = .stub (answers.drop (14 - s.SLEN.toNat)) ∧
        ∀ j, j < 14 - s.SLEN.toNat → t.blockNibble (2 + s.SLEN.toNat + j) = answers[j]?

/-- 41_encode_assembler.md R119: whatever the draws, a completing ENCODE of written cells leaves control 1, length `n`,
the digits in order and `BLEN = 8`; and given the draws the whole block is determined. -/
def Obligations.EncodeFixedPart : Prop :=
  (∀ (s t : State), s.OperandWritten .encode → exec .encode s = .next t → t.waiting = none → t.STATUS = 0x00 →
    (∃ b, t.B[0]? = some (Cell.holding b) ∧ (hi b).toNat = 1 ∧ (lo b).toNat = s.SLEN.toNat) ∧
    t.BLEN = 8 ∧
    ∀ k : Nat, k < s.SLEN.toNat → ∃ c, s.S[k]? = some (Cell.holding c) ∧
      ∃ v, t.blockNibble (2 + k) = some v ∧ v.toNat + 0x30 = c.toNat) ∧
  ∀ (s s' t t' : State) (text : List Byte), s.HoldsString text → s'.HoldsString text →
    s.drawn (14 - text.length) = s'.drawn (14 - text.length) →
    exec .encode s = .next t → exec .encode s' = .next t' → t.waiting = none → t.STATUS = 0x00 →
      t'.waiting = none ∧ t'.STATUS = 0x00 ∧ t'.B = t.B

/-- 41_encode_assembler.md R117: a faulting ENCODE takes no draw, none takes more than `14-n`, and no other operation
takes any. The bound is one on the whole operation: what an ENCODE that waits has taken and what it still needs are
`14-n` together, and a step in which it goes on, waits, or is abandoned never raises the sum. -/
def Obligations.OnlyEncodeDraws : Prop :=
  (∀ (i : Instr) (s t : State), exec i s = .next t →
    (i ≠ .encode → t.source = s.source ∧ t.draws = s.draws) ∧
    (i = .encode → t.draws ≤ s.draws + (14 - s.SLEN.toNat)) ∧
    (i = .encode → s.waiting = none → t.draws + t.drawsNeeded ≤ s.draws + (14 - s.SLEN.toNat)) ∧
    (i = .encode → s.OperandWritten .encode → (s.SLEN.toNat < 4 ∨ 12 < s.SLEN.toNat ∨ ¬s.AllDec) →
      t.source = s.source ∧ t.draws = s.draws) ∧
    (s.waiting = none → t.waiting = none → statusFault t.STATUS ≠ 0 →
      t.source = s.source ∧ t.draws = s.draws)) ∧
  ∀ (s t : State) (N : List Nibble), s.waiting = some N → step s = .next t →
    t.draws + t.drawsNeeded ≤ s.draws + s.drawsNeeded ∧
    (s.source.canAnswer 1 = true → t.draws + t.drawsNeeded = s.draws + s.drawsNeeded) ∧
    (s.source.canAnswer 1 = false → t.draws = s.draws)

/-- 70_reset_and_hazards.md R214, 20_memory.md R58: when the source does not answer every request ENCODE is not over:
no register is written and the core waits; while the source stays silent nothing but a reset or a source changes
that, and neither is kept from the core by the accesses and commands that are held off before it (R211; they stay, to
be served afterwards: log entry 7). -/
def Obligations.EncodeWaitsForTheSource : Prop :=
  (∀ s : State, 4 ≤ s.SLEN.toNat → s.SLEN.toNat ≤ 12 → s.StringWritten s.SLEN.toNat → s.AllDec →
    s.source.canAnswer (14 - s.SLEN.toNat) = false →
      ∃ t N, exec .encode s = .next t ∧ t.source.canAnswer 1 = false ∧
        t = { s with waiting := some N, source := t.source, draws := t.draws }) ∧
  (∀ (s : State) (N : List Nibble), s.waiting = some N → s.source.canAnswer 1 = false →
    (∀ e ∈ s.events, e.FromHost) → step s = .next s) ∧
  (∀ (s : State) (N : List Nibble) (held rest : List Event), s.waiting = some N → s.source.canAnswer 1 = false →
    (∀ e ∈ held, e.FromHost) → s.events = held ++ .reset :: rest →
      step s = .next { State.reset with
        events := held ++ rest, readings := s.readings, source := s.source, draws := s.draws, reads := s.reads }) ∧
  ∀ (s : State) (N : List Nibble) (src : RandomSource) (held rest : List Event),
    s.waiting = some N → s.source.canAnswer 1 = false →
    (∀ e ∈ held, e.FromHost) → s.events = held ++ .connect src :: rest →
      step s = .next { s with events := held ++ rest, source := src }

/-- 41_encode_assembler.md R111, R116, 20_memory.md R58: the step in which a waiting ENCODE goes on, for every source
that answers: if all the draws still needed are answered, the block is the nibbles assembled before (for an ENCODE of
written cells, control 1, length and digits first) and then the draws in order, `BLEN = 8`, `STATUS = 0x00`, and nothing
else changes; if only some are, they are kept, no register is written, and the wait goes on (70_reset_and_hazards.md R214; what is kept is the model's field `waiting`, log
entry 5). -/
def Obligations.WaitingEncodeGoesOn : Prop :=
  ∀ (s : State) (N : List Nibble), s.Inv → s.waiting = some N → s.source.canAnswer 1 = true →
    (s.source.canAnswer (16 - N.length) = true → ∃ t, step s = .next t ∧
      t = { s with
        B := t.B, BLEN := 8, STATUS := 0x00, waiting := none
        source := s.source.after (16 - N.length), draws := s.draws + (16 - N.length) } ∧
      (s.StringWritten s.SLEN.toNat → t.blockNibble 0 = some 1 ∧
        (∃ v, t.blockNibble 1 = some v ∧ v.toNat = s.SLEN.toNat) ∧
        ∀ k : Nat, k < s.SLEN.toNat → ∃ c, s.S[k]? = some (Cell.holding c) ∧
          ∃ v, t.blockNibble (2 + k) = some v ∧ v.toNat + 0x30 = c.toNat) ∧
      (∀ p, p < N.length → t.blockNibble p = N[p]?) ∧
      ∀ j, j < 16 - N.length → ∃ v, t.blockNibble (N.length + j) = some v ∧
        (s.drawn (16 - N.length))[j]? = some v) ∧
    (s.source.canAnswer (16 - N.length) = false → ∃ t got, step s = .next t ∧
      got = s.drawn (16 - N.length) ∧ 0 < got.length ∧ N.length + got.length < 16 ∧
      t.source.canAnswer 1 = false ∧
      t = { s with
        waiting := some (N ++ got), source := s.source.after got.length, draws := s.draws + got.length })

/-- 10_state.md R31, 41_encode_assembler.md R116: an ENCODE whose answers come in two lots, with a wait between them,
ends in exactly the state it ends in when they come at once, whatever the host does in the meantime: that is held off
and still to come (log entry 7). -/
def Obligations.WaitIsNotObservable : Prop :=
  ∀ (s s' t : State) (first later : List Nibble) (held rest : List Event),
    4 ≤ s.SLEN.toNat → s.SLEN.toNat ≤ 12 → s.StringWritten s.SLEN.toNat → s.AllDec → s.waiting = none →
    s.source = .stub first → (∀ e ∈ held, e.FromHost) → s.events = held ++ .connect (.stub later) :: rest →
    first.length < 14 - s.SLEN.toNat → 14 - s.SLEN.toNat ≤ first.length + later.length →
    s' = { s with source := .stub (first ++ later), events := held ++ rest } → exec .encode s = .next t →
      ∃ u w, step t = .next u ∧ step u = .next w ∧ exec .encode s' = .next w ∧ w.waiting = none

/-- 42_decode_extractor.md R131, R138: DECODE, whole: its two faults in their order, and its result for every length
nibble up to 12, whatever the other 60 bits are. -/
def Obligations.DecodeOperation : Prop :=
  encode .decode = 0x04 ∧ ∀ s : State,
    (s.BLEN ≠ 8 → exec .decode s = .next { s with STATUS := 0x03 }) ∧
    (s.BLEN = 8 → s.BlockWritten → 13 ≤ (lo (s.byteAt 0)).toNat →
      exec .decode s = .next { s with STATUS := 0x15 }) ∧
    (s.BLEN = 8 → s.BlockWritten → (lo (s.byteAt 0)).toNat ≤ 12 →
      ∃ t, exec .decode s = .next t ∧
        t = { s with
          S := t.S, SLEN := t.SLEN
          STATUS := if 4 ≤ (lo (s.byteAt 0)).toNat then 0x00 else 0x10 } ∧
        t.SLEN.toNat = (lo (s.byteAt 0)).toNat ∧
        (∀ k, k < (lo (s.byteAt 0)).toNat → t.S[k]? = some (Cell.holding (hexchar
          (if k % 2 = 0 then hi (s.byteAt (1 + k / 2)) else lo (s.byteAt (1 + k / 2)))))) ∧
        ∀ k, (lo (s.byteAt 0)).toNat ≤ k → k < 16 → HoldsNoValue t.S[k]?)

/-- 42_decode_extractor.md R134, R135, R141: the length nibble outside [4,12], in a block whose byte 0 is written: no
length nibble but 13 to 15 makes DECODE of an 8-byte operand fault; and `MALF` after every DECODE. -/
def Obligations.DecodeLengthNibbleOutsideRange : Prop :=
  (∀ (s : State) (b : Byte), s.BLEN = 8 → s.B[0]? = some (Cell.holding b) → s.BlockWritten →
    ∃ t, exec .decode s = .next t ∧
      (b.toNat % 16 ≤ 3 → t.STATUS = 0x10 ∧ t.SLEN.toNat = b.toNat % 16 ∧
        ∀ k, k < b.toNat % 16 → ∃ c, t.S[k]? = some (Cell.holding c)) ∧
      (13 ≤ b.toNat % 16 → t.STATUS = 0x15 ∧ t.S = s.S ∧ t.SLEN = s.SLEN) ∧
      (statusFault t.STATUS ≠ 0 ↔ 13 ≤ b.toNat % 16) ∧
      (statusMalf t.STATUS = true ↔ ¬(4 ≤ b.toNat % 16 ∧ b.toNat % 16 ≤ 12))) ∧
  ∀ s : State, s.BLEN ≠ 8 → ∃ t, exec .decode s = .next t ∧ statusMalf t.STATUS = false

/-- 42_decode_extractor.md R132, R137, R136: the control nibble, the fill, the pad nibble of an odd length and the old
content of `S`, `SLEN` and `STATUS` have no influence on what DECODE leaves. -/
def Obligations.DecodeIgnoresControlAndFill : Prop :=
  ∀ (s s' t t' : State) (len : Nibble), s.BLEN = 8 → s'.BLEN = 8 → len.toNat ≤ 12 →
    s.blockNibble 1 = some len → s'.blockNibble 1 = some len →
    (∀ k, k < len.toNat → s.blockNibble (2 + k) = s'.blockNibble (2 + k) ∧ (s.blockNibble (2 + k)).isSome) →
    exec .decode s = .next t → exec .decode s' = .next t' →
      t.S = t'.S ∧ t.SLEN = t'.SLEN ∧ t.STATUS = t'.STATUS

/-- 42_decode_extractor.md R139: the round trip, for every PIN and every list of draws, and what the reverse needs. -/
def Obligations.EncodeThenDecodeRestoresThePin : Prop :=
  (∀ (s : State) (pin : List Byte), s.HoldsString pin → 4 ≤ pin.length → pin.length ≤ 12 →
    (∀ c ∈ pin, isdec c = true) → s.source.canAnswer (14 - pin.length) = true →
      ∃ t u, exec .encode s = .next t ∧ exec .decode t = .next u ∧
        u.HoldsString pin ∧ u.SLEN = s.SLEN ∧ u.STATUS = 0x00) ∧
  ∀ (s t u : State), exec .decode s = .next t → statusFault t.STATUS = 0 →
    exec .encode t = .next u → u.waiting = none → u.STATUS = 0x00 →
    (∀ p, p < 16 → u.blockNibble p = s.blockNibble p) →
      s.blockNibble 0 = some 1 ∧
      ∃ len, s.blockNibble 1 = some len ∧ 4 ≤ len.toNat ∧ len.toNat ≤ 12 ∧
        (∀ k, k < len.toNat → ∃ v, s.blockNibble (2 + k) = some v ∧ v.toNat ≤ 9) ∧
        ∀ j, j < 14 - len.toNat → s.blockNibble (2 + len.toNat + j) = (t.drawn (14 - len.toNat))[j]?

/-! ### Faults, frames and independence -/

/-- 60_exceptions.md R178, R180: a command that ends in a fault writes `STATUS`, with `MALF` for `DecodeOverrun`
alone, and changes no other register, takes no draw, and is over. -/
def Obligations.FaultWritesOnlyStatus : Prop :=
  ∀ (cmd : Byte) (s t : State), s.waiting = none → runCommand cmd s = .next t → t.waiting = none →
    statusFault t.STATUS ≠ 0 →
      t = { s with STATUS := t.STATUS, reads := t.reads } ∧ statusReserved t.STATUS = 0 ∧
      (statusMalf t.STATUS = true ↔ statusFault t.STATUS = 5)

/-- 10_state.md R38: no operation writes its source buffer or its source length, nor does a waiting ENCODE that goes
on. -/
def Obligations.SourceOperandUnchanged : Prop :=
  (∀ (i : Instr) (s t : State), exec i s = .next t →
    (i = .pack ∨ i = .encode ∨ i = .chklen → t.S = s.S ∧ t.SLEN = s.SLEN) ∧
    (i = .unpack ∨ i = .decode → t.B = s.B ∧ t.BLEN = s.BLEN)) ∧
  ∀ (s t : State) (N : List Nibble), s.waiting = some N → s.source.canAnswer 1 = true → step s = .next t →
    t.S = s.S ∧ t.SLEN = s.SLEN

/-- 10_state.md R34: the frame of every operation, on every path: PACK and ENCODE write `B`, `BLEN`, `STATUS`; UNPACK
and DECODE write `S`, `SLEN`, `STATUS`; CHKLEN writes `STATUS`; ENCODE alone uses the random source and can wait, and
an ENCODE that is not over has written no register, when it starts and when it goes on after a wait (20_memory.md R58).
What arrives from outside and what the host has read stay as they are. -/
def Obligations.InstructionFrames : Prop :=
  (∀ (s t : State),
    (exec .pack s = .next t → t = { s with B := t.B, BLEN := t.BLEN, STATUS := t.STATUS, reads := t.reads }) ∧
    (exec .unpack s = .next t → t = { s with S := t.S, SLEN := t.SLEN, STATUS := t.STATUS, reads := t.reads }) ∧
    (exec .encode s = .next t →
      t = { s with
        B := t.B, BLEN := t.BLEN, STATUS := t.STATUS, waiting := t.waiting
        source := t.source, draws := t.draws, reads := t.reads } ∧
      (s.waiting = none → t.waiting ≠ none → t.B = s.B ∧ t.BLEN = s.BLEN ∧ t.STATUS = s.STATUS)) ∧
    (exec .decode s = .next t → t = { s with S := t.S, SLEN := t.SLEN, STATUS := t.STATUS, reads := t.reads }) ∧
    (exec .chklen s = .next t → t = { s with STATUS := t.STATUS }) ∧
    ∀ i : Instr, exec i s = .next t → s.OperandWritten i → t.reads = s.reads) ∧
  ∀ (s t : State) (N : List Nibble), s.waiting = some N → s.source.canAnswer 1 = true → step s = .next t →
    t = { s with
      B := t.B, BLEN := t.BLEN, STATUS := t.STATUS, waiting := t.waiting, source := t.source, draws := t.draws } ∧
    (t.waiting ≠ none → t.B = s.B ∧ t.BLEN = s.BLEN ∧ t.STATUS = s.STATUS)

/-- 10_state.md R39, R28: after a completed operation the destination cells below the new length hold a value and those
at or above it hold none, whatever they held before; so too after an ENCODE that completes after a wait. -/
def Obligations.DestinationAboveLengthHoldsNoValue : Prop :=
  (∀ (i : Instr) (s t : State), s.waiting = none → exec i s = .next t → t.waiting = none →
    statusFault t.STATUS = 0 →
      (i = .pack ∨ i = .encode → ∀ k, k < 8 →
        (k < t.BLEN.toNat → ∃ b, t.B[k]? = some (Cell.holding b)) ∧ (t.BLEN.toNat ≤ k → HoldsNoValue t.B[k]?)) ∧
      (i = .unpack ∨ i = .decode → ∀ k, k < 16 →
        (k < t.SLEN.toNat → ∃ c, t.S[k]? = some (Cell.holding c)) ∧ (t.SLEN.toNat ≤ k → HoldsNoValue t.S[k]?))) ∧
  ∀ (s t : State) (N : List Nibble), s.Inv → s.waiting = some N → s.source.canAnswer 1 = true → step s = .next t →
    t.waiting = none → t.BLEN = 8 ∧ ∀ k, k < 8 → ∃ b, t.B[k]? = some (Cell.holding b)

/-- 00_scope.md R13: what a command leaves that reads written cells depends on its source operand (and, for ENCODE, on
the draws) alone: not on the old destination, not on `STATUS`, not on anything earlier. -/
def Obligations.OutcomeDependsOnOperandsOnly : Prop :=
  ∀ (i : Instr) (s s' t t' : State), s.waiting = none → s'.waiting = none → s.SameOperand i s' →
    s.OperandWritten i → exec i s = .next t → exec i s' = .next t' →
      t.waiting = t'.waiting ∧
      (t.waiting = none → t.STATUS = t'.STATUS ∧
        (statusFault t.STATUS = 0 →
          (i = .pack ∨ i = .encode → t.B = t'.B ∧ t.BLEN = t'.BLEN) ∧
          (i = .unpack ∨ i = .decode → t.S = t'.S ∧ t.SLEN = t'.SLEN)))

/-- 20_memory.md R59: PACK, UNPACK, DECODE and CHKLEN are idempotent: with the cells it reads written, the same command
again changes no register. -/
def Obligations.CommandsAreIdempotent : Prop :=
  ∀ (i : Instr) (s t : State), i ≠ .encode → s.OperandWritten i → exec i s = .next t →
    ∃ u, exec i t = .next u ∧ u.S = t.S ∧ u.SLEN = t.SLEN ∧ u.B = t.B ∧ u.BLEN = t.BLEN ∧ u.STATUS = t.STATUS

/-- The model's choice (log entry 2) where 10_state.md R29 defines no outcome: an operation that reads a cell without a
value ends (or, an ENCODE, waits for draws), and the outcome is a free one of two kinds. Either `STATUS` gets some
fault and nothing else is written, or the destination gets a free content, with `STATUS` 0x00 or 0x10. Nothing says
which, and the statement holds whatever the free values are. -/
def Obligations.UnwrittenOperandHasOpenOutcome : Prop :=
  (∀ (i : Instr) (s : State), ¬s.OperandWritten i → ∃ t, exec i s = .next t ∧ t.reads = s.reads + 1 ∧
    (t = { s with STATUS := t.STATUS, reads := t.reads } ∧ t.STATUS ∈ [0x01, 0x02, 0x03, 0x04, 0x15] ∨
      i = .pack ∧ t = { s with B := t.B, BLEN := t.BLEN, STATUS := t.STATUS, reads := t.reads } ∧
        t.BLEN.toNat ≤ 8 ∧ t.STATUS ∈ [0x00, 0x10] ∨
      (i = .unpack ∨ i = .decode) ∧
        t = { s with S := t.S, SLEN := t.SLEN, STATUS := t.STATUS, reads := t.reads } ∧
        t.SLEN.toNat ≤ 16 ∧ t.STATUS ∈ [0x00, 0x10] ∨
      i = .encode ∧ t.waiting = none ∧ t.BLEN = 8 ∧ t.STATUS = 0x00 ∨
      i = .encode ∧ (∃ N, t.waiting = some N) ∧ t.B = s.B ∧ t.BLEN = s.BLEN ∧ t.STATUS = s.STATUS)) ∧
  ∀ s : State, s.OperandWritten .chklen

/-- Every step has a next state. No fault of the spec stops the machine (60_exceptions.md R180; log entry 6, DEDUCED),
and no cell without a value does (10_state.md R29; log entry 2, DESIGN CHOICE). That a step of an idle core without an
event has one is log entry 3 (DESIGN CHOICE), and that a step of an ENCODE has one that waits for a silent source is log
entry 5 (DESIGN CHOICE; 93_implementation_defined.md U13 says that a stuck ENCODE has no step). -/
def Obligations.EveryStepHasNextState : Prop := ∀ s : State, ∃ t, step s = .next t

/-- 70_reset_and_hazards.md R205, R206, 10_state.md R29: when the host has done what it owes before a command, the
command reads no cell without a value, no free value has any influence (whatever the counter that names them), and
ENCODE does not wait. -/
def Obligations.ReadyCommandUsesNoUnwrittenCell : Prop :=
  ∀ (i : Instr) (s : State) (n : Nat), s.hostReady i = true → s.OperandWritten i ∧
    ∃ t, exec i s = .next t ∧ exec i { s with reads := n } = .next { t with reads := n } ∧
      (s.waiting = none → t.waiting = none)

/-! ### Invariants and whole-machine rules -/

/-- 30_encoding.md R86, 10_state.md R33, 41_encode_assembler.md R111: every step keeps the invariant: `STATUS` has one
of its seven values, and a waiting ENCODE has a sound part of its block. -/
def Obligations.StepKeepsInv : Prop :=
  ∀ s t : State, s.Inv → step s = .next t → t.Inv

/-- The invariant holds at reset. -/
def Obligations.InvAtReset : Prop := State.reset.Inv

/-- 10_state.md R22, R24: the core itself only writes legal lengths. So as long as the host writes none above the
capacity, now or later, `SLEN` stays at most 16 and `BLEN` at most 8. -/
def Obligations.StepKeepsLegalLengths : Prop :=
  ∀ s t : State,
    s.Inv → s.SLEN.toNat ≤ 16 → s.BLEN.toNat ≤ 8 →
    (∀ n, .access (.writeSLEN n) ∈ s.events → n.toNat ≤ 16) →
    (∀ m, .access (.writeBLEN m) ∈ s.events → m.toNat ≤ 8) →
    step s = .next t →
      t.Inv ∧ t.SLEN.toNat ≤ 16 ∧ t.BLEN.toNat ≤ 8 ∧
      (∀ n, .access (.writeSLEN n) ∈ t.events → n.toNat ≤ 16) ∧
      (∀ m, .access (.writeBLEN m) ∈ t.events → m.toNat ≤ 8)

/-- 10_state.md R25, R27, R35: `STATUS` changes only when a command is run, when a waiting ENCODE goes on, or at reset:
no host access and no random source changes it. -/
def Obligations.OnlyCommandsAndResetChangeStatus : Prop :=
  ∀ s t : State, step s = .next t → t.STATUS ≠ s.STATUS →
    (∃ N, s.waiting = some N) ∨ (∃ cmd rest, s.events = .command cmd :: rest) ∨
    ∃ rest, s.events = .reset :: rest

/-- 10_state.md R35, R25, R28, R22, R24: what each host write does, to an idle core. -/
def Obligations.HostWritesTakeEffect : Prop :=
  ∀ (s : State) (rest : List Event), s.waiting = none →
    (∀ (k : Fin 16) (c : Byte), s.events = .access (.writeS k c) :: rest →
      ∃ t, step s = .next t ∧ t = { s with events := rest, S := t.S } ∧
        ∀ j : Nat, t.S[j]? = if j = k.val then some (Cell.holding c) else s.S[j]?) ∧
    (∀ n, s.events = .access (.writeSLEN n) :: rest → step s = .next { s with events := rest, SLEN := n }) ∧
    (∀ (i : Fin 8) (b : Byte), s.events = .access (.writeB i b) :: rest →
      ∃ t, step s = .next t ∧ t = { s with events := rest, B := t.B } ∧
        ∀ j : Nat, t.B[j]? = if j = i.val then some (Cell.holding b) else s.B[j]?) ∧
    (∀ m, s.events = .access (.writeBLEN m) :: rest → step s = .next { s with events := rest, BLEN := m }) ∧
    ∀ v, s.events = .access (.writeSTATUS v) :: rest → step s = .next { s with events := rest }

/-- 70_reset_and_hazards.md R206, log entries 3 and 4: the platform connects a random source to an idle core: that
source answers from then on, and nothing else changes. -/
def Obligations.SourceConnectedToIdleCore : Prop :=
  ∀ (s : State) (rest : List Event) (src : RandomSource), s.waiting = none → s.events = .connect src :: rest →
    step s = .next { s with events := rest, source := src }

/-- 10_state.md R30, R35, 20_memory.md R59: a host read returns the register (of a cell without a value: some 8-bit
value) and changes no register. -/
def Obligations.HostReadsChangeNothing : Prop :=
  ∀ (s : State) (rest : List Event), s.waiting = none →
    (∀ k, s.events = .access (.readS k) :: rest → ∃ t v, step s = .next t ∧
      t = { s with events := rest, readings := s.readings ++ [.ofS k v], reads := t.reads } ∧
      ∀ c, s.S[k.val]? = some (Cell.holding c) → v = c) ∧
    (s.events = .access .readSLEN :: rest →
      step s = .next { s with events := rest, readings := s.readings ++ [.ofSLEN s.SLEN] }) ∧
    (∀ i, s.events = .access (.readB i) :: rest → ∃ t v, step s = .next t ∧
      t = { s with events := rest, readings := s.readings ++ [.ofB i v], reads := t.reads } ∧
      ∀ b, s.B[i.val]? = some (Cell.holding b) → v = b) ∧
    (s.events = .access .readBLEN :: rest →
      step s = .next { s with events := rest, readings := s.readings ++ [.ofBLEN s.BLEN] }) ∧
    (s.events = .access .readSTATUS :: rest →
      step s = .next { s with events := rest, readings := s.readings ++ [.ofSTATUS s.STATUS] })

/-! ### Reset -/

/-- 10_state.md R36: the state right after reset. -/
def Obligations.ResetState : Prop :=
  State.reset.SLEN = 0 ∧ State.reset.BLEN = 0 ∧ State.reset.STATUS = 0x00 ∧
  (∀ k : Nat, k < 16 → HoldsNoValue State.reset.S[k]?) ∧ (∀ i : Nat, i < 8 → HoldsNoValue State.reset.B[i]?) ∧
  State.reset.waiting = none ∧
  statusFault State.reset.STATUS = 0 ∧ statusMalf State.reset.STATUS = false ∧
  statusReserved State.reset.STATUS = 0

/-- 70_reset_and_hazards.md R200, R203: the reset input puts an idle core in the reset state and leaves the random
source alone. What is still to arrive and what was read are the model's own fields (log entry 8). -/
def Obligations.ResetInput : Prop :=
  ∀ (s : State) (rest : List Event), s.waiting = none → s.events = .reset :: rest →
    step s = .next { State.reset with
      events := rest, readings := s.readings, source := s.source, draws := s.draws, reads := s.reads }

/-- 70_reset_and_hazards.md R201: the first command after reset, for each operation; no cell is read, so any content of
the cells gives the same. -/
def Obligations.FirstCommandAfterReset : Prop :=
  ∀ (S : Vector Cell 16) (B : Vector Cell 8) (s : State),
    s = { State.reset with S := S, B := B } →
      exec .chklen s = .next { s with STATUS := 0x01 } ∧ exec .encode s = .next { s with STATUS := 0x01 } ∧
      (∃ t, exec .pack s = .next t ∧ t.BLEN = 0 ∧ t.STATUS = 0x00) ∧
      (∃ t, exec .unpack s = .next t ∧ t.SLEN = 0 ∧ t.STATUS = 0x00) ∧
      exec .decode s = .next { s with STATUS := 0x03 }
end

