-- ==== Sys2Proof/Laws/Operands.lean ====
section
/-! SUPPORT. What the operand functions do. -/

namespace Sys2Proof.Machine

/-! ### Nibbles and bytes -/

@[simp] theorem hi_joinNibbles (h l : Nibble) : hi (joinNibbles h l) = h := by
  revert h l; decide

@[simp] theorem lo_joinNibbles (h l : Nibble) : lo (joinNibbles h l) = l := by
  revert h l; decide

@[simp] theorem joinNibbles_hi_lo (b : Byte) : joinNibbles (hi b) (lo b) = b := by
  revert b; decide

theorem hi_toNat (b : Byte) : (hi b).toNat = b.toNat / 16 := by
  revert b; decide

theorem lo_toNat (b : Byte) : (lo b).toNat = b.toNat % 16 := by
  revert b; decide

theorem ceil2_eq (n : Nat) : ceil2 n = (n + 1) / 2 := by
  simp [ceil2, Nat.shiftRight_eq_div_pow]

theorem lenOk_eq_true (n : Nat) : (lenOk n = true) = (4 ≤ n ∧ n ≤ 12) := by
  simp [lenOk]

theorem lenOk_eq_false (n : Nat) : (lenOk n = false) = (n < 4 ∨ 12 < n) := by
  simp only [lenOk, Bool.and_eq_false_iff, decide_eq_false_iff_not, Nat.not_le]

/-! ### Characters -/

@[simp] theorem hexval_hexchar (v : Nibble) : hexval (hexchar v) = some v := by
  revert v; decide

/-- A hex-digit character is spelled by its value alone. -/
theorem hexchar_of_hexval {c : Byte} {v : Nibble} (h : hexval c = some v) : hexchar v = c := by
  revert c v; decide

theorem hexval_of_isdec {c : Byte} (h : isdec c = true) : hexval c = some (digitVal c) := by
  revert c; decide

theorem hexchar_digitVal {c : Byte} (h : isdec c = true) : hexchar (digitVal c) = c :=
  hexchar_of_hexval (hexval_of_isdec h)

/-- A decimal character is its digit value above `0x30`. -/
theorem digitVal_toNat {c : Byte} (h : isdec c = true) : (digitVal c).toNat + 0x30 = c.toNat := by
  revert c; decide

theorem digitVal_le {c : Byte} (h : isdec c = true) : (digitVal c).toNat ≤ 9 := by
  revert c; decide

/-! ### The packer and the unpacker -/

theorem packNibbles_length (v : List Nibble) : (packNibbles v).length = (v.length + 1) / 2 := by
  induction v using packNibbles.induct with
  | case1 => rfl
  | case2 h => simp [packNibbles]
  | case3 h l rest ih => simp [packNibbles, ih]; omega

/-- Byte `i` of a packed sequence, the pad nibble of an odd length included. -/
theorem packNibbles_getElem? (v : List Nibble) (i : Nat) :
    (packNibbles v)[i]? = (v[2 * i]?).map fun h => joinNibbles h ((v[2 * i + 1]?).getD 0) := by
  induction v using packNibbles.induct generalizing i with
  | case1 => simp [packNibbles]
  | case2 h =>
    cases i with
    | zero => simp [packNibbles]
    | succ i => simp [packNibbles, Nat.mul_add]
  | case3 h l rest ih =>
    cases i with
    | zero => simp [packNibbles]
    | succ i => simp [packNibbles, ih, Nat.mul_add]

theorem unpackNibbles_length (bytes : List Byte) : (unpackNibbles bytes).length = 2 * bytes.length := by
  induction bytes with
  | nil => rfl
  | cons b rest ih => simp [unpackNibbles, ih]; omega

/-- Nibble `p` of an unpacked byte sequence: byte `p / 2`, the high nibble first. -/
theorem unpackNibbles_getElem? (bytes : List Byte) (p : Nat) :
    (unpackNibbles bytes)[p]? = (bytes[p / 2]?).map fun b => if p % 2 = 0 then hi b else lo b := by
  induction bytes generalizing p with
  | nil => simp [unpackNibbles]
  | cons b rest ih =>
    match p with
    | 0 => simp [unpackNibbles]
    | 1 => simp [unpackNibbles]
    | p + 2 => simp [unpackNibbles, ih]

theorem unpack_length (bytes : List Byte) : (unpack bytes).length = 2 * bytes.length := by
  simp [unpack, unpackNibbles_length]

/-- Packing nibbles and unpacking them again gives them back, with a zero after an odd number of them. -/
theorem unpackNibbles_packNibbles (v : List Nibble) :
    unpackNibbles (packNibbles v) = v ++ List.replicate (v.length % 2) 0 := by
  induction v using packNibbles.induct with
  | case1 => rfl
  | case2 h => simp [packNibbles, unpackNibbles]
  | case3 h l rest ih =>
    have hmod : (rest.length + 1 + 1) % 2 = rest.length % 2 := by omega
    simp [packNibbles, unpackNibbles, ih, hmod]

theorem packNibbles_unpackNibbles (bytes : List Byte) : packNibbles (unpackNibbles bytes) = bytes := by
  induction bytes with
  | nil => rfl
  | cons b rest ih => simp [unpackNibbles, packNibbles, ih]

/-- `hexvals` answers exactly the values of all characters. -/
theorem hexvals_eq_some {text : List Byte} {v : List Nibble} :
    hexvals text = some v ↔ text.map hexval = v.map some := by
  induction text generalizing v with
  | nil => cases v <;> simp [hexvals]
  | cons c rest ih =>
    cases v with
    | nil =>
      simp only [hexvals]
      split <;> simp
    | cons w ws =>
      simp only [hexvals, List.map_cons, List.cons.injEq, ← ih]
      split <;> simp_all

theorem hexvals_eq_none {text : List Byte} : hexvals text = none ↔ ∃ c ∈ text, hexval c = none := by
  induction text with
  | nil => simp [hexvals]
  | cons c rest ih =>
    simp only [hexvals, List.mem_cons, exists_eq_or_imp, ← ih]
    cases hexval c <;> cases hexvals rest <;> simp

theorem hexvals_length {text : List Byte} {v : List Nibble} (h : hexvals text = some v) :
    v.length = text.length := by
  have := congrArg List.length (hexvals_eq_some.mp h)
  simpa using this.symm

/-- A string of hex-digit characters is spelled by its values. -/
theorem map_hexchar_of_hexvals {text : List Byte} {v : List Nibble} (h : hexvals text = some v) :
    v.map hexchar = text := by
  induction text generalizing v with
  | nil => simp_all [hexvals]
  | cons c rest ih =>
    simp only [hexvals] at h
    split at h
    · rename_i w ws hc hrest
      cases h
      simp [hexchar_of_hexval hc, ih hrest]
    · cases h

@[simp] theorem hexvals_map_hexchar (v : List Nibble) : hexvals (v.map hexchar) = some v := by
  rw [hexvals_eq_some]; simp

theorem pinHeader_length (pin : List Byte) : (pinHeader pin).length = 2 + pin.length := by
  simp [pinHeader]; omega

/-! ### Reading the operand cells -/

@[simp] theorem cellContent_holding (c : Byte) : cellContent (some (Cell.holding c)) = some c := rfl

@[simp] theorem cellContent_empty : cellContent (some Cell.empty) = none := rfl

/-- A cell has a content exactly when it exists and is marked as holding it. -/
theorem cellContent_eq_some {cell : Option Cell} {c : Byte} :
    cellContent cell = some c ↔ cell = some (Cell.holding c) := by
  rcases cell with _ | ⟨v, _ | _⟩ <;> simp [cellContent, Cell.holding]

@[simp] theorem cellValue_written (access index : Nat) (v : Byte) :
    cellValue access index (some (Cell.holding v)) = v := rfl

theorem cellWritten_eq_true {cell : Option Cell} : cellWritten cell = true ↔ ∃ v, cell = some (Cell.holding v) := by
  simp only [cellWritten, Option.isSome_iff_exists, cellContent_eq_some]

/-- Where a cell is written, the access that reads it makes no difference. -/
theorem cellValue_congr {cell : Option Cell} (h : cellWritten cell = true) (m n i : Nat) :
    cellValue m i cell = cellValue n i cell := by
  obtain ⟨v, rfl⟩ := cellWritten_eq_true.mp h; rfl

theorem charAt_of_written {s : State} {k : Nat} {c : Byte} (h : s.S[k]? = some (Cell.holding c)) : s.charAt k = c := by
  simp [State.charAt, h]

theorem byteAt_of_written {s : State} {i : Nat} {b : Byte} (h : s.B[i]? = some (Cell.holding b)) : s.byteAt i = b := by
  simp [State.byteAt, h]

@[simp] theorem stringOperand_length (s : State) : s.stringOperand.length = s.SLEN.toNat := by
  simp [State.stringOperand]

@[simp] theorem bytesOperand_length (s : State) : s.bytesOperand.length = s.BLEN.toNat := by
  simp [State.bytesOperand]

theorem stringOperand_getElem? {s : State} {k : Nat} (h : k < s.SLEN.toNat) :
    s.stringOperand[k]? = some (s.charAt k) := by
  simp [State.stringOperand, h]

theorem bytesOperand_getElem? {s : State} {i : Nat} (h : i < s.BLEN.toNat) :
    s.bytesOperand[i]? = some (s.byteAt i) := by
  simp [State.bytesOperand, h]

theorem all_isdec_eq (s : State) : (s.stringOperand.all isdec = true) = s.AllDec := by
  simp [State.stringOperand, State.AllDec]

theorem pack_eq_none (s : State) : pack s.stringOperand = none ↔ ¬s.AllHex := by
  simp [pack, hexvals_eq_none, State.stringOperand, State.AllHex]

/-- What `scanHeld` says, cell by cell. -/
theorem scanHeld_eq_true {accepts : Byte → Bool} {cells : List (Option Byte)} :
    scanHeld accepts cells = true ↔ ∀ k < cells.length,
      (∀ j < k, ∃ c, cells[j]? = some (some c) ∧ accepts c = true) → ∃ c, cells[k]? = some (some c) := by
  induction cells with
  | nil => simp [scanHeld]
  | cons cell rest ih =>
    cases cell with
    | none => simpa [scanHeld] using ⟨0, by simp⟩
    | some c =>
      simp only [scanHeld, Bool.or_eq_true, Bool.not_eq_true', ih]
      constructor
      · intro h k hk hj
        cases k with
        | zero => exact ⟨c, rfl⟩
        | succ k =>
          obtain ⟨c', hc, ha⟩ := hj 0 (Nat.succ_pos k)
          cases hc
          exact h.resolve_left (by simp [ha]) k (by simpa using hk) fun j hjk => by simpa using hj (j + 1) (by omega)
      · intro h
        cases ha : accepts c with
        | false => exact .inl rfl
        | true =>
          refine .inr fun k hk hj => ?_
          refine (h (k + 1) (by simpa using hk) fun j hjk => ?_)
          cases j with
          | zero => exact ⟨c, rfl, ha⟩
          | succ j => simpa using hj j (by omega)

theorem stringHeld_eq (s : State) (accepts : Byte → Bool) : (s.stringHeld accepts = true) = s.ScanWritten accepts := by
  have hcell : ∀ k < s.SLEN.toNat, ∀ c : Byte, ((List.range s.SLEN.toNat).map fun k => cellContent s.S[k]?)[k]? =
      some (some c) ↔ s.S[k]? = some (Cell.holding c) := by
    intro k hk c
    rw [List.getElem?_map, List.getElem?_range hk, Option.map_some, Option.some_inj, cellContent_eq_some]
  simp only [State.stringHeld, State.ScanWritten, scanHeld_eq_true, List.length_map, List.length_range, eq_iff_iff,
    cellWritten_eq_true]
  refine forall_congr' fun k => forall_congr' fun hk => ?_
  rw [exists_congr (hcell k hk)]
  refine imp_congr_left (forall_congr' fun j => forall_congr' fun hj => ?_)
  exact exists_congr fun c => by rw [hcell j (by omega) c]

/-- A string operand that is written whole is written wherever a scan reads it. -/
theorem scanWritten_of_written {s : State} {accepts : Byte → Bool} (h : s.StringWritten s.SLEN.toNat) :
    s.ScanWritten accepts := fun k hk _ => h k hk

/-- A scan that meets a character it does not accept reads no cell after it. -/
theorem scanWritten_of_bad {s : State} {accepts : Byte → Bool} {k : Nat} {c : Byte} (hw : s.StringWritten k)
    (hS : s.S[k]? = some (Cell.holding c)) (hc : accepts c = false) : s.ScanWritten accepts := by
  intro m _ hj
  rcases Nat.lt_trichotomy m k with h | rfl | h
  · exact hw m h
  · rw [hS]; rfl
  · obtain ⟨c', e, ha⟩ := hj k h
    rw [hS] at e; cases e; rw [hc] at ha; cases ha

/-- If a scan reads only written cells and all that is read is accepted, the string operand is written whole. -/
theorem written_of_scan {s : State} {accepts : Byte → Bool} (h : s.ScanWritten accepts)
    (ha : ∀ k < s.SLEN.toNat, accepts (s.charAt k) = true) : s.StringWritten s.SLEN.toNat := by
  intro k
  induction k using Nat.strong_induction_on with
  | _ k ih =>
    intro hk
    refine h k hk fun j hj => ?_
    obtain ⟨c, hc⟩ := cellWritten_eq_true.mp (ih j hj (by omega))
    exact ⟨c, hc, charAt_of_written hc ▸ ha j (by omega)⟩

theorem bytesHeld_eq (s : State) : (s.bytesHeld = true) = s.BytesWritten s.BLEN.toNat := by
  simp [State.bytesHeld, State.BytesWritten]

theorem blockHeld_eq (s : State) : (s.blockHeld = true) = s.BlockWritten := by
  simp only [State.blockHeld, State.BlockWritten, State.BytesWritten, ceil2_eq, Bool.and_eq_true, Bool.or_eq_true,
    decide_eq_true_eq, List.all_eq_true, List.mem_range, eq_iff_iff]
  constructor
  · rintro ⟨h0, h⟩
    refine ⟨fun i hi => by rw [show i = 0 by omega]; exact h0, fun hl i hi => ?_⟩
    cases i with
    | zero => exact h0
    | succ i =>
      rw [Nat.add_comm i 1]
      exact h.resolve_left (Nat.not_lt.mpr hl) i (by omega)
  · rintro ⟨h0, h⟩
    refine ⟨h0 0 (by omega), ?_⟩
    rcases Nat.lt_or_ge 12 s.blockLength with hl | hl
    · exact .inl hl
    · exact .inr fun i hi => h hl _ (by omega)

/-- If a scan reads only written cells and not all is accepted, the first character that is not stands behind written
cells. -/
theorem bad_of_scan {s : State} {accepts : Byte → Bool} (h : s.ScanWritten accepts)
    (ha : ¬∀ k < s.SLEN.toNat, accepts (s.charAt k) = true) :
    ∃ k c, k < s.SLEN.toNat ∧ s.StringWritten k ∧ s.S[k]? = some (Cell.holding c) ∧ accepts c = false := by
  simp only [Classical.not_forall] at ha
  obtain ⟨hk, hbad⟩ := Nat.find_spec ha
  have hw : ∀ m, m ≤ Nat.find ha → cellWritten s.S[m]? = true := by
    intro m
    induction m using Nat.strong_induction_on with
    | _ m ih =>
      intro hm
      refine h m (by omega) fun j hj => ?_
      obtain ⟨c, hc⟩ := cellWritten_eq_true.mp (ih j hj (by omega))
      refine ⟨c, hc, charAt_of_written hc ▸ Classical.byContradiction fun hn => ?_⟩
      exact Nat.find_min ha (show j < Nat.find ha by omega) ⟨by omega, hn⟩
  obtain ⟨c, hc⟩ := cellWritten_eq_true.mp (hw _ (Nat.le_refl _))
  exact ⟨_, c, hk, fun j hj => hw j (by omega), hc, charAt_of_written hc ▸ by simpa using hbad⟩

theorem blockLength_lt (s : State) : s.blockLength < 16 := (lo (s.byteAt 0)).isLt

@[simp] theorem pinBytes_length (s : State) : s.pinBytes.length = ceil2 s.blockLength := by
  simp [State.pinBytes]

theorem pinBytes_getElem? {s : State} {i : Nat} (h : i < ceil2 s.blockLength) :
    s.pinBytes[i]? = some (s.byteAt (1 + i)) := by
  simp [State.pinBytes, h]

theorem decodePin_length {len : Nat} {bytes : List Byte} (h : len ≤ 2 * bytes.length) :
    (decodePin len bytes).length = len := by
  simp [decodePin, unpack_length, h]

end Sys2Proof.Machine
end

