-- ==== Sys2Proof/Laws/State.lean ====
section
/-! SUPPORT. One lemma per field per update of the state, each true by computation. -/

namespace Sys2Proof.Machine

/-! ### `Cell` -/

@[simp] theorem Cell.holding_value (c : Byte) : (Cell.holding c).value = c := rfl
@[simp] theorem Cell.holding_held (c : Byte) : (Cell.holding c).held = true := rfl
@[simp] theorem Cell.empty_held : Cell.empty.held = false := rfl

variable (s : State)

/-! ### `State.raise` -/

@[simp] theorem State.raise_S (f : FaultCode) : (s.raise f).S = s.S := rfl
@[simp] theorem State.raise_SLEN (f : FaultCode) : (s.raise f).SLEN = s.SLEN := rfl
@[simp] theorem State.raise_B (f : FaultCode) : (s.raise f).B = s.B := rfl
@[simp] theorem State.raise_BLEN (f : FaultCode) : (s.raise f).BLEN = s.BLEN := rfl
@[simp] theorem State.raise_STATUS (f : FaultCode) : (s.raise f).STATUS = statusByte (decide (f = .decodeOverrun)) f := rfl
@[simp] theorem State.raise_waiting (f : FaultCode) : (s.raise f).waiting = s.waiting := rfl
@[simp] theorem State.raise_events (f : FaultCode) : (s.raise f).events = s.events := rfl
@[simp] theorem State.raise_readings (f : FaultCode) : (s.raise f).readings = s.readings := rfl
@[simp] theorem State.raise_source (f : FaultCode) : (s.raise f).source = s.source := rfl
@[simp] theorem State.raise_draws (f : FaultCode) : (s.raise f).draws = s.draws := rfl
@[simp] theorem State.raise_reads (f : FaultCode) : (s.raise f).reads = s.reads := rfl

/-! ### `State.accessed` -/

@[simp] theorem State.accessed_S : (s.accessed).S = s.S := rfl
@[simp] theorem State.accessed_SLEN : (s.accessed).SLEN = s.SLEN := rfl
@[simp] theorem State.accessed_B : (s.accessed).B = s.B := rfl
@[simp] theorem State.accessed_BLEN : (s.accessed).BLEN = s.BLEN := rfl
@[simp] theorem State.accessed_STATUS : (s.accessed).STATUS = s.STATUS := rfl
@[simp] theorem State.accessed_waiting : (s.accessed).waiting = s.waiting := rfl
@[simp] theorem State.accessed_events : (s.accessed).events = s.events := rfl
@[simp] theorem State.accessed_readings : (s.accessed).readings = s.readings := rfl
@[simp] theorem State.accessed_source : (s.accessed).source = s.source := rfl
@[simp] theorem State.accessed_draws : (s.accessed).draws = s.draws := rfl
@[simp] theorem State.accessed_reads : (s.accessed).reads = s.reads + 1 := rfl

/-! ### `State.complete` -/

@[simp] theorem State.complete_S : (s.complete).S = s.S := rfl
@[simp] theorem State.complete_SLEN : (s.complete).SLEN = s.SLEN := rfl
@[simp] theorem State.complete_B : (s.complete).B = s.B := rfl
@[simp] theorem State.complete_BLEN : (s.complete).BLEN = s.BLEN := rfl
@[simp] theorem State.complete_STATUS : (s.complete).STATUS = statusByte false .noFault := rfl
@[simp] theorem State.complete_waiting : (s.complete).waiting = s.waiting := rfl
@[simp] theorem State.complete_events : (s.complete).events = s.events := rfl
@[simp] theorem State.complete_readings : (s.complete).readings = s.readings := rfl
@[simp] theorem State.complete_source : (s.complete).source = s.source := rfl
@[simp] theorem State.complete_draws : (s.complete).draws = s.draws := rfl
@[simp] theorem State.complete_reads : (s.complete).reads = s.reads := rfl

/-! ### `State.completeB` -/

@[simp] theorem State.completeB_S (bytes : List Byte) : (s.completeB bytes).S = s.S := rfl
@[simp] theorem State.completeB_SLEN (bytes : List Byte) : (s.completeB bytes).SLEN = s.SLEN := rfl
@[simp] theorem State.completeB_B (bytes : List Byte) : (s.completeB bytes).B = fillB bytes := rfl
@[simp] theorem State.completeB_BLEN (bytes : List Byte) : (s.completeB bytes).BLEN = BitVec.ofNat 4 bytes.length := rfl
@[simp] theorem State.completeB_STATUS (bytes : List Byte) : (s.completeB bytes).STATUS = statusByte false .noFault := rfl
@[simp] theorem State.completeB_waiting (bytes : List Byte) : (s.completeB bytes).waiting = s.waiting := rfl
@[simp] theorem State.completeB_events (bytes : List Byte) : (s.completeB bytes).events = s.events := rfl
@[simp] theorem State.completeB_readings (bytes : List Byte) : (s.completeB bytes).readings = s.readings := rfl
@[simp] theorem State.completeB_source (bytes : List Byte) : (s.completeB bytes).source = s.source := rfl
@[simp] theorem State.completeB_draws (bytes : List Byte) : (s.completeB bytes).draws = s.draws := rfl
@[simp] theorem State.completeB_reads (bytes : List Byte) : (s.completeB bytes).reads = s.reads := rfl

/-! ### `State.completeS` -/

@[simp] theorem State.completeS_S (text : List Byte) (malf : Bool) : (s.completeS text malf).S = fillS text := rfl
@[simp] theorem State.completeS_SLEN (text : List Byte) (malf : Bool) : (s.completeS text malf).SLEN = BitVec.ofNat 5 text.length := rfl
@[simp] theorem State.completeS_B (text : List Byte) (malf : Bool) : (s.completeS text malf).B = s.B := rfl
@[simp] theorem State.completeS_BLEN (text : List Byte) (malf : Bool) : (s.completeS text malf).BLEN = s.BLEN := rfl
@[simp] theorem State.completeS_STATUS (text : List Byte) (malf : Bool) : (s.completeS text malf).STATUS = statusByte malf .noFault := rfl
@[simp] theorem State.completeS_waiting (text : List Byte) (malf : Bool) : (s.completeS text malf).waiting = s.waiting := rfl
@[simp] theorem State.completeS_events (text : List Byte) (malf : Bool) : (s.completeS text malf).events = s.events := rfl
@[simp] theorem State.completeS_readings (text : List Byte) (malf : Bool) : (s.completeS text malf).readings = s.readings := rfl
@[simp] theorem State.completeS_source (text : List Byte) (malf : Bool) : (s.completeS text malf).source = s.source := rfl
@[simp] theorem State.completeS_draws (text : List Byte) (malf : Bool) : (s.completeS text malf).draws = s.draws := rfl
@[simp] theorem State.completeS_reads (text : List Byte) (malf : Bool) : (s.completeS text malf).reads = s.reads := rfl

/-! ### `State.setStatus` -/

@[simp] theorem State.setStatus_S (v : Byte) : (s.setStatus v).S = s.S := rfl
@[simp] theorem State.setStatus_SLEN (v : Byte) : (s.setStatus v).SLEN = s.SLEN := rfl
@[simp] theorem State.setStatus_B (v : Byte) : (s.setStatus v).B = s.B := rfl
@[simp] theorem State.setStatus_BLEN (v : Byte) : (s.setStatus v).BLEN = s.BLEN := rfl
@[simp] theorem State.setStatus_STATUS (v : Byte) : (s.setStatus v).STATUS = v := rfl
@[simp] theorem State.setStatus_waiting (v : Byte) : (s.setStatus v).waiting = s.waiting := rfl
@[simp] theorem State.setStatus_events (v : Byte) : (s.setStatus v).events = s.events := rfl
@[simp] theorem State.setStatus_readings (v : Byte) : (s.setStatus v).readings = s.readings := rfl
@[simp] theorem State.setStatus_source (v : Byte) : (s.setStatus v).source = s.source := rfl
@[simp] theorem State.setStatus_draws (v : Byte) : (s.setStatus v).draws = s.draws := rfl
@[simp] theorem State.setStatus_reads (v : Byte) : (s.setStatus v).reads = s.reads := rfl

/-! ### `State.afterDraws` -/

@[simp] theorem State.afterDraws_S (n : Nat) : (s.afterDraws n).S = s.S := rfl
@[simp] theorem State.afterDraws_SLEN (n : Nat) : (s.afterDraws n).SLEN = s.SLEN := rfl
@[simp] theorem State.afterDraws_B (n : Nat) : (s.afterDraws n).B = s.B := rfl
@[simp] theorem State.afterDraws_BLEN (n : Nat) : (s.afterDraws n).BLEN = s.BLEN := rfl
@[simp] theorem State.afterDraws_STATUS (n : Nat) : (s.afterDraws n).STATUS = s.STATUS := rfl
@[simp] theorem State.afterDraws_waiting (n : Nat) : (s.afterDraws n).waiting = s.waiting := rfl
@[simp] theorem State.afterDraws_events (n : Nat) : (s.afterDraws n).events = s.events := rfl
@[simp] theorem State.afterDraws_readings (n : Nat) : (s.afterDraws n).readings = s.readings := rfl
@[simp] theorem State.afterDraws_source (n : Nat) : (s.afterDraws n).source = s.source.after n := rfl
@[simp] theorem State.afterDraws_draws (n : Nat) : (s.afterDraws n).draws = s.draws + n := rfl
@[simp] theorem State.afterDraws_reads (n : Nat) : (s.afterDraws n).reads = s.reads := rfl

/-! ### `State.illegalCommand` -/

@[simp] theorem State.illegalCommand_S : (s.illegalCommand).S = s.S := rfl
@[simp] theorem State.illegalCommand_SLEN : (s.illegalCommand).SLEN = s.SLEN := rfl
@[simp] theorem State.illegalCommand_B : (s.illegalCommand).B = s.B := rfl
@[simp] theorem State.illegalCommand_BLEN : (s.illegalCommand).BLEN = s.BLEN := rfl
@[simp] theorem State.illegalCommand_STATUS : (s.illegalCommand).STATUS = statusByte false .illegalOp := rfl
@[simp] theorem State.illegalCommand_waiting : (s.illegalCommand).waiting = s.waiting := rfl
@[simp] theorem State.illegalCommand_events : (s.illegalCommand).events = s.events := rfl
@[simp] theorem State.illegalCommand_readings : (s.illegalCommand).readings = s.readings := rfl
@[simp] theorem State.illegalCommand_source : (s.illegalCommand).source = s.source := rfl
@[simp] theorem State.illegalCommand_draws : (s.illegalCommand).draws = s.draws := rfl
@[simp] theorem State.illegalCommand_reads : (s.illegalCommand).reads = s.reads := rfl

/-! ### `State.connectSource` -/

@[simp] theorem State.connectSource_S (src : RandomSource) : (s.connectSource src).S = s.S := rfl
@[simp] theorem State.connectSource_SLEN (src : RandomSource) : (s.connectSource src).SLEN = s.SLEN := rfl
@[simp] theorem State.connectSource_B (src : RandomSource) : (s.connectSource src).B = s.B := rfl
@[simp] theorem State.connectSource_BLEN (src : RandomSource) : (s.connectSource src).BLEN = s.BLEN := rfl
@[simp] theorem State.connectSource_STATUS (src : RandomSource) : (s.connectSource src).STATUS = s.STATUS := rfl
@[simp] theorem State.connectSource_waiting (src : RandomSource) : (s.connectSource src).waiting = s.waiting := rfl
@[simp] theorem State.connectSource_events (src : RandomSource) : (s.connectSource src).events = s.events := rfl
@[simp] theorem State.connectSource_readings (src : RandomSource) : (s.connectSource src).readings = s.readings := rfl
@[simp] theorem State.connectSource_source (src : RandomSource) : (s.connectSource src).source = src := rfl
@[simp] theorem State.connectSource_draws (src : RandomSource) : (s.connectSource src).draws = s.draws := rfl
@[simp] theorem State.connectSource_reads (src : RandomSource) : (s.connectSource src).reads = s.reads := rfl

/-! ### `State.resetCore` -/

@[simp] theorem State.resetCore_S : (s.resetCore).S = Vector.replicate 16 Cell.empty := rfl
@[simp] theorem State.resetCore_SLEN : (s.resetCore).SLEN = 0 := rfl
@[simp] theorem State.resetCore_B : (s.resetCore).B = Vector.replicate 8 Cell.empty := rfl
@[simp] theorem State.resetCore_BLEN : (s.resetCore).BLEN = 0 := rfl
@[simp] theorem State.resetCore_STATUS : (s.resetCore).STATUS = 0x00 := rfl
@[simp] theorem State.resetCore_waiting : (s.resetCore).waiting = none := rfl
@[simp] theorem State.resetCore_events : (s.resetCore).events = s.events := rfl
@[simp] theorem State.resetCore_readings : (s.resetCore).readings = s.readings := rfl
@[simp] theorem State.resetCore_source : (s.resetCore).source = s.source := rfl
@[simp] theorem State.resetCore_draws : (s.resetCore).draws = s.draws := rfl
@[simp] theorem State.resetCore_reads : (s.resetCore).reads = s.reads := rfl

/-! ### `State.presentCommand` -/

@[simp] theorem State.presentCommand_S (cmd : Byte) : (s.presentCommand cmd).S = s.S := rfl
@[simp] theorem State.presentCommand_SLEN (cmd : Byte) : (s.presentCommand cmd).SLEN = s.SLEN := rfl
@[simp] theorem State.presentCommand_B (cmd : Byte) : (s.presentCommand cmd).B = s.B := rfl
@[simp] theorem State.presentCommand_BLEN (cmd : Byte) : (s.presentCommand cmd).BLEN = s.BLEN := rfl
@[simp] theorem State.presentCommand_STATUS (cmd : Byte) : (s.presentCommand cmd).STATUS = s.STATUS := rfl
@[simp] theorem State.presentCommand_waiting (cmd : Byte) : (s.presentCommand cmd).waiting = none := rfl
@[simp] theorem State.presentCommand_events (cmd : Byte) : (s.presentCommand cmd).events = .command cmd :: s.events := rfl
@[simp] theorem State.presentCommand_readings (cmd : Byte) : (s.presentCommand cmd).readings = s.readings := rfl
@[simp] theorem State.presentCommand_source (cmd : Byte) : (s.presentCommand cmd).source = s.source := rfl
@[simp] theorem State.presentCommand_draws (cmd : Byte) : (s.presentCommand cmd).draws = s.draws := rfl
@[simp] theorem State.presentCommand_reads (cmd : Byte) : (s.presentCommand cmd).reads = s.reads := rfl

/-! ### `State.wait` -/

@[simp] theorem State.wait_S (N : List Nibble) : (s.wait N).S = s.S := rfl
@[simp] theorem State.wait_SLEN (N : List Nibble) : (s.wait N).SLEN = s.SLEN := rfl
@[simp] theorem State.wait_B (N : List Nibble) : (s.wait N).B = s.B := rfl
@[simp] theorem State.wait_BLEN (N : List Nibble) : (s.wait N).BLEN = s.BLEN := rfl
@[simp] theorem State.wait_STATUS (N : List Nibble) : (s.wait N).STATUS = s.STATUS := rfl
@[simp] theorem State.wait_waiting (N : List Nibble) : (s.wait N).waiting = some N := rfl
@[simp] theorem State.wait_events (N : List Nibble) : (s.wait N).events = s.events := rfl
@[simp] theorem State.wait_readings (N : List Nibble) : (s.wait N).readings = s.readings := rfl
@[simp] theorem State.wait_source (N : List Nibble) : (s.wait N).source = s.source := rfl
@[simp] theorem State.wait_draws (N : List Nibble) : (s.wait N).draws = s.draws := rfl
@[simp] theorem State.wait_reads (N : List Nibble) : (s.wait N).reads = s.reads := rfl

/-! ### `State.endWait` -/

@[simp] theorem State.endWait_S : (s.endWait).S = s.S := rfl
@[simp] theorem State.endWait_SLEN : (s.endWait).SLEN = s.SLEN := rfl
@[simp] theorem State.endWait_B : (s.endWait).B = s.B := rfl
@[simp] theorem State.endWait_BLEN : (s.endWait).BLEN = s.BLEN := rfl
@[simp] theorem State.endWait_STATUS : (s.endWait).STATUS = s.STATUS := rfl
@[simp] theorem State.endWait_waiting : (s.endWait).waiting = none := rfl
@[simp] theorem State.endWait_events : (s.endWait).events = s.events := rfl
@[simp] theorem State.endWait_readings : (s.endWait).readings = s.readings := rfl
@[simp] theorem State.endWait_source : (s.endWait).source = s.source := rfl
@[simp] theorem State.endWait_draws : (s.endWait).draws = s.draws := rfl
@[simp] theorem State.endWait_reads : (s.endWait).reads = s.reads := rfl

/-! ### `State.takeEvent` -/

@[simp] theorem State.takeEvent_S (rest : List Event) : (s.takeEvent rest).S = s.S := rfl
@[simp] theorem State.takeEvent_SLEN (rest : List Event) : (s.takeEvent rest).SLEN = s.SLEN := rfl
@[simp] theorem State.takeEvent_B (rest : List Event) : (s.takeEvent rest).B = s.B := rfl
@[simp] theorem State.takeEvent_BLEN (rest : List Event) : (s.takeEvent rest).BLEN = s.BLEN := rfl
@[simp] theorem State.takeEvent_STATUS (rest : List Event) : (s.takeEvent rest).STATUS = s.STATUS := rfl
@[simp] theorem State.takeEvent_waiting (rest : List Event) : (s.takeEvent rest).waiting = s.waiting := rfl
@[simp] theorem State.takeEvent_events (rest : List Event) : (s.takeEvent rest).events = rest := rfl
@[simp] theorem State.takeEvent_readings (rest : List Event) : (s.takeEvent rest).readings = s.readings := rfl
@[simp] theorem State.takeEvent_source (rest : List Event) : (s.takeEvent rest).source = s.source := rfl
@[simp] theorem State.takeEvent_draws (rest : List Event) : (s.takeEvent rest).draws = s.draws := rfl
@[simp] theorem State.takeEvent_reads (rest : List Event) : (s.takeEvent rest).reads = s.reads := rfl

end Sys2Proof.Machine
end

