-- ==== Sys2Proof/Laws/Ops.lean ====
section
/-! SUPPORT. What the shared operations do: the status byte, filling a buffer, the random source, assembling a block,
waiting. -/

namespace Sys2Proof.Machine

/-! ### The status byte -/

@[simp] theorem statusFault_statusByte (malf : Bool) (f : FaultCode) :
    statusFault (statusByte malf f) = faultCodeBits f := by
  cases malf <;> cases f <;> rfl

@[simp] theorem statusMalf_statusByte (malf : Bool) (f : FaultCode) : statusMalf (statusByte malf f) = malf := by
  cases malf <;> cases f <;> rfl

@[simp] theorem statusReserved_statusByte (malf : Bool) (f : FaultCode) :
    statusReserved (statusByte malf f) = 0 := by
  cases malf <;> cases f <;> rfl

/-- What `raise` and a completion put into `STATUS` is one of the seven values. -/
theorem statusByte_raise_legal (f : FaultCode) : statusByte (decide (f = .decodeOverrun)) f ∈ legalStatus := by
  cases f <;> decide

theorem statusByte_complete_legal (malf : Bool) : statusByte malf .noFault ∈ legalStatus := by
  cases malf <;> decide

/-- A status value that is not a fault is `0x00` or `0x10`; one that is, one of the five others. -/
theorem legalStatus_cases {v : Byte} (h : v ∈ legalStatus) :
    (statusFault v = 0 ∧ v ∈ [0x00, 0x10]) ∨ (statusFault v ≠ 0 ∧ v ∈ [0x01, 0x02, 0x03, 0x04, 0x15]) := by
  revert v; decide

/-- The free status is one of the seven values. -/
theorem freeStatus_legal (k : Nat) : freeStatus k ∈ legalStatus := by
  have h : ∀ i : Fin 7, legalStatus.getD i.val 0x00 ∈ legalStatus := by decide
  exact h _

/-! ### An outcome that the spec does not define -/

@[simp] theorem freeBytes_length (k n : Nat) : (freeBytes k n).length = n := by simp [freeBytes]

@[simp] theorem freeNibbles_length (k n : Nat) : (freeNibbles k n).length = n := by simp [freeNibbles]

/-- Everything `openB` can do: some fault and nothing else, or some completion into `B`. -/
theorem openB_cases (s : State) :
    (∃ v, v ∈ legalStatus ∧ statusFault v ≠ 0 ∧ s.openB = s.accessed.setStatus v) ∨
    (∃ v bytes, v ∈ legalStatus ∧ statusFault v = 0 ∧ bytes.length ≤ 8 ∧
      s.openB = (s.accessed.completeB bytes).setStatus v) := by
  unfold State.openB State.openOutcome
  split
  · exact .inr ⟨_, _, freeStatus_legal _, ‹_›, by simp; omega, rfl⟩
  · exact .inl ⟨_, freeStatus_legal _, ‹_›, rfl⟩

/-- Everything `openS` can do: some fault and nothing else, or some completion into `S`. -/
theorem openS_cases (s : State) :
    (∃ v, v ∈ legalStatus ∧ statusFault v ≠ 0 ∧ s.openS = s.accessed.setStatus v) ∨
    (∃ v text, v ∈ legalStatus ∧ statusFault v = 0 ∧ text.length ≤ 16 ∧
      s.openS = (s.accessed.completeS text false).setStatus v) := by
  unfold State.openS State.openOutcome
  split
  · exact .inr ⟨_, _, freeStatus_legal _, ‹_›, by simp; omega, rfl⟩
  · exact .inl ⟨_, freeStatus_legal _, ‹_›, rfl⟩

/-- Everything `openEncode` can do: some fault and nothing else, or an assembly that starts from at least the
`2 + SLEN` nibbles every ENCODE has before its draws. -/
theorem openEncode_cases (s : State) :
    (∃ v, v ∈ legalStatus ∧ statusFault v ≠ 0 ∧ s.openEncode = s.accessed.setStatus v) ∨
    (∃ N, N.length ≤ 16 ∧ (s.SLEN.toNat ≤ 14 → 2 + s.SLEN.toNat ≤ N.length) ∧
      s.openEncode = s.accessed.assemble N) := by
  unfold State.openEncode State.openOutcome
  split
  · refine .inr ⟨_, by simp, fun h => ?_, rfl⟩
    have := Nat.mod_lt (Config.freeCount s.reads) (show 0 < 15 - s.SLEN.toNat by omega)
    have hb : Config.blockNibbles = 16 := rfl
    simp only [freeNibbles_length, hb]; omega
  · exact .inl ⟨_, freeStatus_legal _, ‹_›, rfl⟩

/-! ### The buffers -/

@[simp] theorem cellOf_some (c : Byte) : cellOf (some c) = Cell.holding c := rfl

@[simp] theorem cellOf_none : cellOf none = Cell.empty := rfl

@[simp] theorem cellContent_cellOf (value : Option Byte) : cellContent (some (cellOf value)) = value := by
  cases value <;> rfl

@[simp] theorem cellWritten_cellOf (value : Option Byte) : cellWritten (some (cellOf value)) = value.isSome := by
  cases value <;> rfl

/-- A filled byte buffer: the values first, then cells without a value. -/
theorem fillB_getElem? (vals : List Byte) (k : Nat) (h : k < 8) : (fillB vals)[k]? = some (cellOf vals[k]?) := by
  unfold fillB; interval_cases k <;> rfl

/-- A filled string buffer: the values first, then cells without a value. -/
theorem fillS_getElem? (vals : List Byte) (k : Nat) (h : k < 16) : (fillS vals)[k]? = some (cellOf vals[k]?) := by
  unfold fillS; interval_cases k <;> rfl

/-- A string that fits is what `S` and `SLEN` hold after a completion into `S`. -/
theorem completeS_holdsString {s : State} {text : List Byte} {malf : Bool} (h : text.length ≤ 16) :
    (s.completeS text malf).HoldsString text := by
  refine ⟨by simp; omega, fun k c hk => ?_⟩
  have hlt : k < text.length := (List.getElem?_eq_some_iff.mp hk).1
  rw [State.completeS_S, fillS_getElem? _ _ (by omega), hk, cellOf_some]

/-- Bytes that fit are what `B` and `BLEN` hold after a completion into `B`. -/
theorem completeB_holdsBytes {s : State} {bytes : List Byte} (h : bytes.length ≤ 8) :
    (s.completeB bytes).HoldsBytes bytes := by
  refine ⟨by simp; omega, fun i b hi => ?_⟩
  have hlt : i < bytes.length := (List.getElem?_eq_some_iff.mp hi).1
  rw [State.completeB_B, fillB_getElem? _ _ (by omega), hi, cellOf_some]

/-! ### The random source -/

theorem RandomSource.answers_length (src : RandomSource) (count need : Nat) :
    (src.answers count need).length ≤ need := by
  cases src <;> simp [RandomSource.answers]

/-- A source gives as many answers as are asked for exactly when it can. -/
theorem RandomSource.answers_length_eq (src : RandomSource) (count need : Nat) :
    (src.answers count need).length = need ↔ src.canAnswer need = true := by
  cases src <;> simp [RandomSource.answers, RandomSource.canAnswer]

/-- A source that gave fewer answers than it was asked for has none left. -/
theorem RandomSource.after_silent {src : RandomSource} {count need : Nat} (h : src.canAnswer need = false) :
    (src.after (src.answers count need).length).canAnswer 1 = false := by
  cases src with
  | live => simp [RandomSource.canAnswer] at h
  | stub left =>
    simp only [RandomSource.canAnswer, decide_eq_false_iff_not, Nat.not_le] at h
    simp [RandomSource.after, RandomSource.answers, RandomSource.canAnswer]; omega

@[simp] theorem RandomSource.after_zero (src : RandomSource) : src.after 0 = src := by
  cases src <;> rfl

theorem drawn_length (s : State) (need : Nat) : (s.drawn need).length ≤ need :=
  RandomSource.answers_length ..

theorem drawn_length_eq (s : State) (need : Nat) :
    (s.drawn need).length = need ↔ s.source.canAnswer need = true :=
  RandomSource.answers_length_eq ..

/-! ### Assembling a block -/

/-- `assemble`, with what the source gives named. -/
theorem assemble_eq {s : State} {N got : List Nibble} (h : s.drawn (16 - N.length) = got) :
    s.assemble N =
      if N.length + got.length < 16 then (s.afterDraws got.length).wait (N ++ got)
      else ((s.afterDraws got.length).completeB (packNibbles (N ++ got))).endWait := by
  subst h; rfl

/-- When the source answers every request, the sixteen nibbles are packed into `B`. -/
theorem assemble_complete {s : State} {N : List Nibble} (hN : N.length ≤ 16)
    (h : s.source.canAnswer (16 - N.length) = true) :
    s.assemble N = ((s.afterDraws (16 - N.length)).completeB (packNibbles (N ++ s.drawn (16 - N.length)))).endWait := by
  have hl := (drawn_length_eq s (16 - N.length)).mpr h
  rw [assemble_eq rfl, if_neg (by omega), hl]

/-- When it does not, no register is written and the core waits with what it has. -/
theorem assemble_wait {s : State} {N : List Nibble} (h : s.source.canAnswer (16 - N.length) = false) :
    s.assemble N = (s.afterDraws (s.drawn (16 - N.length)).length).wait (N ++ s.drawn (16 - N.length)) := by
  have hl := drawn_length s (16 - N.length)
  have hne : (s.drawn (16 - N.length)).length ≠ 16 - N.length := fun hc => by
    rw [(drawn_length_eq _ _).mp hc] at h; cases h
  rw [assemble_eq rfl, if_pos (by omega)]

/-- Everything `assemble` can do, in one case distinction. -/
theorem assemble_cases (s : State) (N : List Nibble) :
    (∃ got, got = s.drawn (16 - N.length) ∧ N.length + got.length < 16 ∧
      s.assemble N = (s.afterDraws got.length).wait (N ++ got)) ∨
    (∃ got, got = s.drawn (16 - N.length) ∧ 16 ≤ N.length + got.length ∧
      s.assemble N = ((s.afterDraws got.length).completeB (packNibbles (N ++ got))).endWait) := by
  by_cases h : N.length + (s.drawn (16 - N.length)).length < 16
  · exact .inl ⟨_, rfl, h, by rw [assemble_eq rfl, if_pos h]⟩
  · exact .inr ⟨_, rfl, by omega, by rw [assemble_eq rfl, if_neg h]⟩

/-! ### Waiting -/

/-- What is held off is what comes from the host. -/
theorem heldOff_eq_true (e : Event) : (e.heldOff = true) = e.FromHost := by
  cases e <;> simp [Event.heldOff, Event.FromHost]

theorem all_heldOff {l : List Event} : l.all Event.heldOff = true ↔ ∀ e ∈ l, e.FromHost := by
  simp [heldOff_eq_true]

/-- Everything the core can do while an ENCODE waits. -/
theorem stepWaiting_cases (s : State) (N : List Nibble) :
    (s.source.canAnswer 1 = true ∧ s.stepWaiting N = s.assemble N) ∨
    (s.source.canAnswer 1 = false ∧ ∃ held rest, held.all Event.heldOff = true ∧ s.events = held ++ .reset :: rest ∧
      s.stepWaiting N = (s.takeEvent (held ++ rest)).resetCore) ∨
    (s.source.canAnswer 1 = false ∧ ∃ held src rest, held.all Event.heldOff = true ∧
      s.events = held ++ .connect src :: rest ∧
      s.stepWaiting N = (s.takeEvent (held ++ rest)).connectSource src) ∨
    (s.source.canAnswer 1 = false ∧ s.events.all Event.heldOff = true ∧ s.stepWaiting N = s) := by
  have hheld : (s.events.takeWhile Event.heldOff).all Event.heldOff = true := by simp
  have hsplit := List.takeWhile_append_dropWhile (p := Event.heldOff) (l := s.events)
  unfold State.stepWaiting
  split
  · exact .inl ⟨‹_›, rfl⟩
  · rename_i hc
    have hc : s.source.canAnswer 1 = false := by simpa using hc
    split
    · rename_i hd
      exact .inr (.inl ⟨hc, _, _, hheld, by rw [← hd, hsplit], rfl⟩)
    · rename_i hd
      exact .inr (.inr (.inl ⟨hc, _, _, _, hheld, by rw [← hd, hsplit], rfl⟩))
    · rename_i hr hs
      refine .inr (.inr (.inr ⟨hc, ?_, rfl⟩))
      have hnil : s.events.dropWhile Event.heldOff = [] := by
        cases hd : s.events.dropWhile Event.heldOff with
        | nil => rfl
        | cons e rest =>
          have hh := List.head_dropWhile_not Event.heldOff (l := s.events) (by simp [hd])
          cases e with
          | reset => exact absurd hd (hr _)
          | connect src => exact absurd hd (hs _ _)
          | access a => simp [hd, Event.heldOff] at hh
          | command c => simp [hd, Event.heldOff] at hh
      rw [hnil, List.append_nil] at hsplit
      rw [← hsplit]; exact hheld

/-- Behind events that are held off, the first other one is found. -/
theorem dropWhile_heldOff {held rest : List Event} {e : Event} (h : held.all Event.heldOff = true)
    (he : e.heldOff = false) : (held ++ e :: rest).dropWhile Event.heldOff = e :: rest ∧
      (held ++ e :: rest).takeWhile Event.heldOff = held := by
  induction held with
  | nil => simp [he]
  | cons a held ih =>
    simp only [List.all_cons, Bool.and_eq_true] at h
    simp [h.1, ih h.2]

/-- A silent source and a reset behind events that are held off: the core is reset, and they are still to come. -/
theorem stepWaiting_reset {s : State} {N : List Nibble} {held rest : List Event} (hc : s.source.canAnswer 1 = false)
    (h : held.all Event.heldOff = true) (he : s.events = held ++ .reset :: rest) :
    s.stepWaiting N = (s.takeEvent (held ++ rest)).resetCore := by
  obtain ⟨hd, ht⟩ := dropWhile_heldOff (e := .reset) (rest := rest) h rfl
  simp [State.stepWaiting, hc, he, hd, ht]

/-- A silent source and a new one connected behind events that are held off. -/
theorem stepWaiting_connect {s : State} {N : List Nibble} {held rest : List Event} {src : RandomSource}
    (hc : s.source.canAnswer 1 = false) (h : held.all Event.heldOff = true)
    (he : s.events = held ++ .connect src :: rest) :
    s.stepWaiting N = (s.takeEvent (held ++ rest)).connectSource src := by
  obtain ⟨hd, ht⟩ := dropWhile_heldOff (e := .connect src) (rest := rest) h rfl
  simp [State.stepWaiting, hc, he, hd, ht]

/-- A silent source and nothing to come but what is held off: the core is stuck. -/
theorem stepWaiting_stuck {s : State} {N : List Nibble} (hc : s.source.canAnswer 1 = false)
    (h : s.events.all Event.heldOff = true) : s.stepWaiting N = s := by
  have hd : s.events.dropWhile Event.heldOff = [] := by
    simpa [List.dropWhile_eq_nil_iff] using h
  simp [State.stepWaiting, hc, hd]

end Sys2Proof.Machine
end

