-- ==== Sys2Proof/Laws/Exec.lean ====
section
/-! SUPPORT. What each operation can do: one inversion lemma per meaning, which later proofs cite instead of unfolding
the meaning. -/

namespace Sys2Proof.Machine

/-- What CHKLEN can do. -/
theorem exec_chklen (s : State) :
    exec .chklen s = .next (if lenOk s.SLEN.toNat then s.complete else s.raise .invalidPinLength) := by
  simp only [exec, execChklen]; split <;> rfl

/-- What PACK can do. -/
theorem exec_pack_cases (s : State) :
    (16 < s.SLEN.toNat ∧ exec .pack s = .next (s.raise .badCount)) ∨
    (s.SLEN.toNat ≤ 16 ∧ s.ScanWritten isHex ∧ pack s.stringOperand = none ∧
      exec .pack s = .next (s.raise .badDigit)) ∨
    (∃ v, s.SLEN.toNat ≤ 16 ∧ s.StringWritten s.SLEN.toNat ∧ hexvals s.stringOperand = some v ∧
      exec .pack s = .next (s.completeB (packNibbles v))) ∨
    (s.SLEN.toNat ≤ 16 ∧ ¬s.ScanWritten isHex ∧ exec .pack s = .next s.openB) := by
  simp only [exec, execPack, ← stringHeld_eq]
  split
  · exact .inl ⟨by assumption, rfl⟩
  · split
    · rename_i hw
      cases h : hexvals s.stringOperand with
      | none => exact .inr (.inl ⟨Nat.le_of_not_lt ‹_›, hw, by simp [pack, h], by simp [pack, h]⟩)
      | some v =>
        have ha : s.AllHex := Classical.byContradiction fun ha => by
          have := (pack_eq_none s).mpr ha; simp [pack, h] at this
        exact .inr (.inr (.inl ⟨v, Nat.le_of_not_lt ‹_›, written_of_scan (accepts := isHex) (stringHeld_eq s isHex ▸ hw) ha,
          rfl, by simp [pack, h]⟩))
    · exact .inr (.inr (.inr ⟨Nat.le_of_not_lt ‹_›, ‹_›, rfl⟩))

/-- What UNPACK can do. -/
theorem exec_unpack_cases (s : State) :
    (8 < s.BLEN.toNat ∧ exec .unpack s = .next (s.raise .badCount)) ∨
    (s.BLEN.toNat ≤ 8 ∧ s.BytesWritten s.BLEN.toNat ∧
      exec .unpack s = .next (s.completeS (unpack s.bytesOperand) false)) ∨
    (s.BLEN.toNat ≤ 8 ∧ ¬s.BytesWritten s.BLEN.toNat ∧ exec .unpack s = .next s.openS) := by
  simp only [exec, execUnpack, ← bytesHeld_eq]
  split
  · exact .inl ⟨by assumption, rfl⟩
  · split
    · exact .inr (.inl ⟨Nat.le_of_not_lt ‹_›, ‹_›, rfl⟩)
    · exact .inr (.inr ⟨Nat.le_of_not_lt ‹_›, ‹_›, rfl⟩)

/-- What ENCODE can do. -/
theorem exec_encode_cases (s : State) :
    (lenOk s.SLEN.toNat = false ∧ exec .encode s = .next (s.raise .invalidPinLength)) ∨
    (lenOk s.SLEN.toNat = true ∧ s.ScanWritten isdec ∧ ¬s.AllDec ∧
      exec .encode s = .next (s.raise .badDigit)) ∨
    (lenOk s.SLEN.toNat = true ∧ s.StringWritten s.SLEN.toNat ∧ s.AllDec ∧
      exec .encode s = .next (s.assemble (pinHeader s.stringOperand))) ∨
    (lenOk s.SLEN.toNat = true ∧ ¬s.ScanWritten isdec ∧
      exec .encode s = .next s.openEncode) := by
  simp only [exec, execEncode, ← all_isdec_eq, ← stringHeld_eq]
  split
  · split
    · rename_i hw
      split
      · rename_i hd
        have hd' : s.AllDec := all_isdec_eq s ▸ hd
        exact .inr (.inr (.inl ⟨‹_›, written_of_scan (stringHeld_eq s isdec ▸ hw) hd', hd, rfl⟩))
      · exact .inr (.inl ⟨‹_›, hw, ‹_›, rfl⟩)
    · exact .inr (.inr (.inr ⟨‹_›, ‹_›, rfl⟩))
  · exact .inl ⟨by simp_all, rfl⟩

/-- ENCODE of a PIN is the assembler on its control, length and digit nibbles. -/
theorem exec_encode_eq {s : State} (h : lenOk s.SLEN.toNat = true) (hw : s.StringWritten s.SLEN.toNat)
    (hd : s.AllDec) : exec .encode s = .next (s.assemble (pinHeader s.stringOperand)) := by
  rcases exec_encode_cases s with ⟨a, _⟩ | ⟨_, _, a, _⟩ | ⟨_, _, _, b⟩ | ⟨_, a, _⟩
  · rw [h] at a; cases a
  · exact absurd hd a
  · exact b
  · exact absurd (scanWritten_of_written hw) a

/-- How many nibbles are left for the fill after control, length and digits. -/
theorem pinHeader_fill {s : State} (h : lenOk s.SLEN.toNat = true) :
    16 - (pinHeader s.stringOperand).length = 14 - s.SLEN.toNat := by
  have hn := (lenOk_eq_true _).mp h
  rw [pinHeader_length, stringOperand_length]; omega

/-- ENCODE of a PIN when the source answers all its draws. -/
theorem exec_encode_answered {s : State} (h : lenOk s.SLEN.toNat = true) (hw : s.StringWritten s.SLEN.toNat)
    (hd : s.AllDec) (hc : s.source.canAnswer (14 - s.SLEN.toNat) = true) :
    exec .encode s = .next ((s.afterDraws (14 - s.SLEN.toNat)).completeB
      (encodePin s.stringOperand (s.drawn (14 - s.SLEN.toNat)))).endWait := by
  have hn := (lenOk_eq_true _).mp h
  rw [exec_encode_eq h hw hd, assemble_complete (by simp [pinHeader_length]; omega) (by rwa [pinHeader_fill h]),
    pinHeader_fill h]
  rfl

/-- ENCODE of a PIN when the source stops answering: the core waits. -/
theorem exec_encode_unanswered {s : State} (h : lenOk s.SLEN.toNat = true) (hw : s.StringWritten s.SLEN.toNat)
    (hd : s.AllDec) (hc : s.source.canAnswer (14 - s.SLEN.toNat) = false) :
    exec .encode s = .next ((s.afterDraws (s.drawn (14 - s.SLEN.toNat)).length).wait
      (pinHeader s.stringOperand ++ s.drawn (14 - s.SLEN.toNat))) := by
  rw [exec_encode_eq h hw hd, assemble_wait (by rwa [pinHeader_fill h]), pinHeader_fill h]

/-- What DECODE can do. -/
theorem exec_decode_cases (s : State) :
    (s.BLEN.toNat ≠ 8 ∧ exec .decode s = .next (s.raise .badCount)) ∨
    (s.BLEN.toNat = 8 ∧ s.BlockWritten ∧ 12 < s.blockLength ∧ exec .decode s = .next (s.raise .decodeOverrun)) ∨
    (s.BLEN.toNat = 8 ∧ s.BlockWritten ∧ s.blockLength ≤ 12 ∧
      exec .decode s = .next (s.completeS (decodePin s.blockLength s.pinBytes) (!lenOk s.blockLength))) ∨
    (s.BLEN.toNat = 8 ∧ ¬s.BlockWritten ∧ exec .decode s = .next s.openS) := by
  simp only [exec, execDecode, ← blockHeld_eq]
  split
  · exact .inl ⟨by assumption, rfl⟩
  · split
    · split
      · exact .inr (.inl ⟨by simp_all, ‹_›, by assumption, rfl⟩)
      · exact .inr (.inr (.inl ⟨by simp_all, ‹_›, Nat.le_of_not_lt ‹_›, rfl⟩))
    · exact .inr (.inr (.inr ⟨by simp_all, ‹_›, rfl⟩))

/-- A command byte is one of the five operations or raises `IllegalOp`. -/
theorem runCommand_cases (cmd : Byte) (s : State) :
    (∃ i, decode cmd = .instr i ∧ runCommand cmd s = exec i s) ∨
    (decode cmd = .illegalOp cmd ∧ runCommand cmd s = .next s.illegalCommand) := by
  unfold runCommand
  cases h : decode cmd with
  | instr i => exact .inl ⟨i, rfl, rfl⟩
  | illegalOp c =>
    have hc : c = cmd := by
      revert h; unfold decode
      split
      · split <;> simp +contextual
      · simp +contextual
    exact .inr ⟨by rw [hc], rfl⟩

end Sys2Proof.Machine
end

