-- ==== Sys2Proof/Laws/PerInstr.lean ====
section
/-! SUPPORT. The family `CommandCode`: what holds of every operation as syntax, one lemma per constructor. -/

namespace Sys2Proof.Laws.CommandCode

/-- The encoding of an operation is a well-formed command byte, with `RSV = 0`, that decodes to it. -/
def Statement (i : Instr) : Prop :=
  i.wf = true ∧ cmdRsv (encode i) = 0 ∧ commandWf (encode i) = true ∧ decode (encode i) = .instr i

theorem pack : Statement .pack := by refine ⟨?_, ?_, ?_, ?_⟩ <;> decide

theorem unpack : Statement .unpack := by refine ⟨?_, ?_, ?_, ?_⟩ <;> decide

theorem encode : Statement .encode := by refine ⟨?_, ?_, ?_, ?_⟩ <;> decide

theorem decode : Statement .decode := by refine ⟨?_, ?_, ?_, ?_⟩ <;> decide

theorem chklen : Statement .chklen := by refine ⟨?_, ?_, ?_, ?_⟩ <;> decide

end Sys2Proof.Laws.CommandCode
end

