-- ==== Sys2Proof/Tests/Slice0.lean ====
section
/-! SUPPORT. Tests against spec/95_test_vectors.md, command bytes written out from spec/30_encoding.md, ill-formed terms,
and for every obligation with hypotheses a witness that meets them. -/

namespace Sys2Proof.Tests

open Sys2Proof.Machine

/-! ### States to test with -/

/-- The ten draws of program P1 of 95_test_vectors.md: a b c d e f 0 1 2 3. -/
def tenDraws : List Nibble := [0xa, 0xb, 0xc, 0xd, 0xe, 0xf, 0x0, 0x1, 0x2, 0x3]

/-- `WS text` after reset, with a stub that has ten answers. -/
def withText (text : List Byte) : State :=
  { State.reset.completeS text false with source := .stub tenDraws }

/-- `WSLEN n` after `withText`. -/
def withLen (n : BitVec 5) (text : List Byte) : State := { withText text with SLEN := n }

/-- `WB bytes` after reset. -/
def withBytes (bytes : List Byte) : State := State.reset.completeB bytes

/-- The next state of an outcome, if there is one. -/
def nextOf (o : Host.Outcome State Fault Refusal) : Option State :=
  match o with
  | .next s => some s
  | _ => none

/-- What a cell holds, if it holds a value. -/
def held (c : Cell) : Option Byte := cellContent (some c)

/-- `"1234"`. -/
def text1234 : List Byte := [0x31, 0x32, 0x33, 0x34]

/-- The block that ENCODE makes of `"1234"` with the draws of P1. -/
def block1234 : List Byte := [0x14, 0x12, 0x34, 0xab, 0xcd, 0xef, 0x01, 0x23]

/-- A waiting ENCODE: the stub of `"1234"` had one answer and ten are needed. -/
def waitingState (events : List Event) : State :=
  { withText text1234 with source := .stub [], waiting := some [1, 4, 1, 2, 3, 4, 0xa], events := events }

/-- An idle core with one event to come. -/
def oneEvent (e : Event) : State := { withText text1234 with events := [e] }

/-! ### Well-formedness: an ill-formed term for each check -/

/-- R70: `RSV` must be 0. -/
theorem test_commandWf_refuses_rsv : commandWf 0x09 = false := by decide

/-- R72, R73: `OP` 0 is no operation. -/
theorem test_commandWf_refuses_op_zero : commandWf 0x00 = false := by decide

/-- R72, R73: nor are 6 and 7. -/
theorem test_commandWf_refuses_op_above : commandWf 0x06 = false ∧ commandWf 0x07 = false := by decide

/-- R51: `S` has 16 cells. -/
theorem test_lineWf_refuses_long_text : lineWf (.ws (List.replicate 17 0x30)) = false := by decide

/-- R51: `B` has 8 cells. -/
theorem test_lineWf_refuses_long_bytes : lineWf (.wb (List.replicate 9 0x00)) = false := by decide

/-- R115: no ENCODE uses more than ten draws. -/
theorem test_lineWf_refuses_eleven_draws : lineWf (.encodeWith (List.replicate 11 0x0)) = false := by decide

/-! ### Decoding: the bytes of 30_encoding.md R72, written out bit by bit as `RSV` and `OP` -/

theorem test_decode_pack : decode 0b00000001 = .instr .pack := by decide
theorem test_decode_unpack : decode 0b00000010 = .instr .unpack := by decide
theorem test_decode_encode : decode 0b00000011 = .instr .encode := by decide
theorem test_decode_decode : decode 0b00000100 = .instr .decode := by decide
theorem test_decode_chklen : decode 0b00000101 = .instr .chklen := by decide

/-- 95_test_vectors.md 2.6: the reserved bits are decoded. -/
theorem test_decode_reserved : decode 0b00001001 = .illegalOp 0x09 ∧ decode 0b10000001 = .illegalOp 0x81 := by decide

/-- The table's numbering of bits. -/
theorem test_decodeTableWord : decodeTableWord 8 0x03 = some .encode ∧ decodeTableWord 8 0x0b = none := by decide

/-! ### Characters, 30_encoding.md R75 to R78 -/

theorem test_hexval_edges : hexval 0x2f = none ∧ hexval 0x30 = some 0 ∧ hexval 0x39 = some 9 ∧ hexval 0x3a = none ∧
    hexval 0x60 = none ∧ hexval 0x61 = some 10 ∧ hexval 0x66 = some 15 ∧ hexval 0x67 = none ∧
    hexval 0x41 = none := by decide

theorem test_hexchar_edges : hexchar 9 = 0x39 ∧ hexchar 10 = 0x61 ∧ hexchar 15 = 0x66 := by decide

/-- R54: the sixteen hex digits of the word are the logical string. -/
theorem test_blockWord : blockWord block1234 = 0x141234abcdef0123 := by decide

/-! ### One step of each operation, 95_test_vectors.md part 2 -/

/-- 2.4: `abc` packs to `ab c0`. -/
theorem test_pack_odd : (nextOf (exec .pack (withText [0x61, 0x62, 0x63]))).map (fun t => (t.B.toList.map held, t.BLEN, t.STATUS)) =
    some ([some 0xab, some 0xc0, none, none, none, none, none, none], 2, 0x00) := by decide

/-- 2.4: the pad is 0 whatever `S[n]` holds: `WS "1239"`, `WSLEN 3` gives `12 30`. -/
theorem test_pack_pad_is_zero :
    (nextOf (exec .pack (withLen 3 [0x31, 0x32, 0x33, 0x39]))).map (fun t => (held t.B[0], held t.B[1], t.BLEN)) =
      some (some 0x12, some 0x30, 2) := by decide

/-- 2.5: `1a f0` unpacks to `"1af0"`. -/
theorem test_unpack : (nextOf (exec .unpack (withBytes [0x1a, 0xf0]))).map (fun t => ((t.S.toList.take 5).map held, t.SLEN)) =
    some ([some 0x31, some 0x61, some 0x66, some 0x30, none], 4) := by decide

/-- 2.5: `WBLEN 9` is `BadCount`. -/
theorem test_unpack_badCount :
    (nextOf (exec .unpack { withBytes [0x1a] with BLEN := 9 })).map (fun t => (t.STATUS, t.SLEN)) =
      some (0x03, 0) := by decide

/-- P1: `"1234"` with the draws a b c d e f 0 1 2 3. -/
theorem test_encode : (nextOf (exec .encode (withText text1234))).map (fun t => (t.B.toList.map held, t.BLEN, t.STATUS)) =
    some (block1234.map some, 8, 0x00) := by decide

/-- 2.2: `12x`, bad length and bad character: the length is tested first. -/
theorem test_encode_length_first :
    (nextOf (exec .encode (withText [0x31, 0x32, 0x78]))).map (fun t => (t.STATUS, t.source)) =
      some (0x01, .stub tenDraws) := by decide

/-- 2.3: an odd length drops the low nibble of the last byte; `S[5]` holds no value. -/
theorem test_decode_odd :
    (nextOf (exec .decode (withBytes [0x15, 0x12, 0x34, 0x5f, 0xed, 0xcb, 0xa9, 0x87]))).map
      (fun t => ((t.S.toList.take 6).map held, t.SLEN, t.STATUS)) =
      some ([some 0x31, some 0x32, some 0x33, some 0x34, some 0x35, none], 5, 0x00) := by decide

/-- 2.3: `L = 3` completes with `MALF`; `L = 13` is `DecodeOverrun`. -/
theorem test_decode_lengths :
    (nextOf (exec .decode (withBytes [0x13, 0x98, 0x76, 0x54, 0x32, 0x10, 0xff, 0xff]))).map
      (fun t => ((t.S.toList.take 4).map held, t.STATUS)) = some ([some 0x39, some 0x38, some 0x37, none], 0x10) ∧
    (nextOf (exec .decode (withBytes [0x1d, 0x12, 0x34, 0x56, 0x78, 0x90, 0x12, 0x34]))).map
      (fun t => (t.SLEN, t.STATUS)) = some (0, 0x15) := by decide

/-- 2.1: the boundary of the length validator. -/
theorem test_chklen_edges :
    [3, 4, 12, 13].map (fun n => (nextOf (exec .chklen (withLen n []))).map (fun t => t.STATUS)) =
      [some 0x01, some 0x00, some 0x00, some 0x01] := by decide

/-- 10_state.md R29, R38, R180: the host raised the length without writing the cells, straight after reset. Whatever the
free outcome is, each operation has a next state, and its source is as it was. -/
theorem test_unwritten_operand_runs :
    (∃ t, exec .pack { State.reset with SLEN := 1 } = .next t ∧ t.SLEN = 1 ∧ t.S = State.reset.S) ∧
    ∃ t, exec .unpack { State.reset with BLEN := 1 } = .next t ∧ t.BLEN = 1 ∧ t.B = State.reset.B := by
  constructor
  · refine ⟨State.openB { State.reset with SLEN := 1 }, rfl, ?_⟩
    rcases openB_cases { State.reset with SLEN := 1 } with ⟨v, _, _, e⟩ | ⟨v, bytes, _, _, _, e⟩ <;> rw [e] <;>
      exact ⟨rfl, rfl⟩
  · refine ⟨State.openS { State.reset with BLEN := 1 }, rfl, ?_⟩
    rcases openS_cases { State.reset with BLEN := 1 } with ⟨v, _, _, e⟩ | ⟨v, text, _, _, _, e⟩ <;> rw [e] <;>
      exact ⟨rfl, rfl⟩

/-- 10_state.md R34, 43_bcd_pack_unpack.md R152, 41_encode_assembler.md R111: a bad character ends the scan, so a cell
after it needs no value; a cell before it does. -/
theorem test_bad_digit_ends_the_scan :
    (nextOf (exec .pack (withLen 2 [0x67]))).map (fun t => (t.STATUS, t.BLEN)) = some (0x02, 0) ∧
    (nextOf (exec .encode (withLen 4 [0x31, 0x61]))).map (fun t => t.STATUS) = some 0x02 ∧
    State.stringHeld isHex { withLen 2 [0x31, 0x67] with S := (withText [0x31, 0x67]).S.set 0 Cell.empty } = false ∧
    State.stringHeld isdec (withLen 4 [0x31, 0x32]) = false := by decide

/-- 10_state.md R34: a fault found before a cell is needed reads none, and CHKLEN reads none at all. -/
theorem test_unread_cells_need_no_value :
    [exec .pack { State.reset with SLEN := 17 }, exec .unpack { State.reset with BLEN := 9 },
      exec .encode { State.reset with SLEN := 13 }, exec .decode { State.reset with BLEN := 7 },
      exec .chklen { State.reset with SLEN := 4 }].map (fun o => (nextOf o).map fun t => t.STATUS) =
      [some 0x03, some 0x03, some 0x01, some 0x03, some 0x00] := by decide

/-- 42_decode_extractor.md R137: DECODE of `14 12 34` reads no cell above `B[2]`; of `1d`, none but `B[0]` (R131). -/
theorem test_decode_reads_no_fill :
    (nextOf (exec .decode { withBytes [0x14, 0x12, 0x34] with BLEN := 8 })).map (fun t => (t.SLEN, t.STATUS)) =
      some (4, 0x00) ∧
    (nextOf (exec .decode { withBytes [0x1d] with BLEN := 8 })).map (fun t => t.STATUS) = some 0x15 ∧
    State.blockHeld { withBytes [0x15, 0x12, 0x34] with BLEN := 8 } = false := by decide

/-! ### Steps -/

/-- 70_reset_and_hazards.md R214, R211: a reset reaches a waiting core past a command that is held off, which is then
still to come. -/
theorem test_reset_ends_wait_past_held_command :
    (nextOf (step (waitingState [.command 0x05, .reset, .access .readSTATUS]))).map
      (fun t => (t.waiting, t.SLEN, t.events)) =
      some (none, 0, [.command 0x05, .access .readSTATUS]) := by decide

/-- R214: a command alone does not end the wait. -/
theorem test_waiting_core_accepts_no_command :
    (nextOf (step (waitingState [.command 0x05]))).map (fun t => (t.waiting.isSome, t.events)) =
      some (true, [.command 0x05]) := by decide

/-- 2.7: the first command after reset. -/
theorem test_first_commands :
    [0x05, 0x03, 0x01, 0x02, 0x04].map
      (fun w => (nextOf (step (State.reset.withFetchWord 8 w))).map (fun t => t.STATUS)) =
      [some 0x01, some 0x01, some 0x00, some 0x00, some 0x03] := by decide

/-- R87: `WS "12"` is two cell writes and then the length. -/
theorem test_script_ws : lineEvents (.ws [0x31, 0x32]) State.reset =
    [.access (.writeS 0 0x31), .access (.writeS 1 0x32), .access (.writeSLEN 2)] := by decide

/-- R87: `RS` reads `SLEN` and the cells below it. -/
theorem test_script_rs : lineEvents .rs (withText [0x31]) = [.access .readSLEN, .access (.readS 0)] := by decide

/-! ### Witnesses: the hypotheses of the obligations are met, clause by clause, at boundary values -/

/-- Two host events that are held off while an operation is in progress. -/
def heldEvents : List Event := [.command 0x05, .access (.writeSLEN 0)]

theorem heldEvents_fromHost : ∀ e ∈ heldEvents, e.FromHost := by
  intro e he
  simp only [heldEvents, List.mem_cons, List.not_mem_nil, or_false] at he
  rcases he with rfl | rfl
  · exact .inr ⟨_, rfl⟩
  · exact .inl ⟨_, rfl⟩

theorem withText_holds (text : List Byte) (h : text.length ≤ 16) : (withText text).HoldsString text :=
  completeS_holdsString (s := State.reset) (malf := false) h

theorem withBytes_holds (bytes : List Byte) (h : bytes.length ≤ 8) : (withBytes bytes).HoldsBytes bytes :=
  completeB_holdsBytes h

theorem text1234_written : (withText text1234).StringWritten (withText text1234).SLEN.toNat := by
  unfold State.StringWritten; decide

theorem text1234_operand : (withText text1234).OperandWritten .pack ∧ (withText text1234).OperandWritten .encode :=
  ⟨fun _ => scanWritten_of_written text1234_written, fun _ _ => scanWritten_of_written text1234_written⟩

theorem waitingState_nil_inv : (waitingState []).Inv := by
  refine ⟨by decide, fun N hN => ?_⟩
  cases hN
  refine ⟨by decide, by decide, by decide, fun _ => ⟨rfl, rfl, fun k hk => ?_⟩⟩
  have hk : k < 4 := hk
  interval_cases k <;> exact ⟨_, rfl, by decide, _, rfl, by decide⟩

theorem waitingState_inv (events : List Event) : (waitingState events).Inv := waitingState_nil_inv

/-- The waiting ENCODE of `waitingState`, when the source has `n` of the nine answers that are still needed. -/
def answeredState (n : Nat) : State := { waitingState [] with source := .stub ((tenDraws.drop 1).take n) }

theorem answeredState_inv (n : Nat) : (answeredState n).Inv := waitingState_inv []

theorem text1234_allDec : (withText text1234).AllDec := by unfold State.AllDec; decide

theorem witness_EncodeDecodeRoundTrip : Instr.pack.wf = true ∧ decode 0x01 = .instr .pack := by decide

theorem witness_CharacterFunctions : isdec 0x30 = true ∧ isdec 0x39 = true ∧ isdec 0x2f = false ∧ isdec 0x3a = false ∧
    (9 : Nibble).toNat ≤ 9 ∧ 10 ≤ (10 : Nibble).toNat := by decide

theorem witness_PackNibblesRule : (0 < ([7] : List Nibble).length) ∧ pack [0x37] = some [0x70] := by decide

theorem witness_PackerInverseLaws :
    pack [0x31, 0x32] = some [0x12] ∧ pack [0x37] = some [0x70] ∧
    ((withBytes block1234).BLEN.toNat ≤ 8 ∧ (withBytes block1234).BytesWritten 8) ∧
    ((withText text1234).SLEN.toNat ≤ 16 ∧ (withText text1234).StringWritten 4 ∧ (withText text1234).AllHex) ∧
    ((withText [0x61]).StringWritten 1 ∧ (withText [0x61]).AllHex) := by
  unfold State.AllHex State.StringWritten State.BytesWritten; decide

theorem witness_StepRunsDecodedCommand :
    (oneEvent (.command 0x03)).waiting = none ∧ (oneEvent (.command 0x03)).events = [.command 0x03] ∧
    decode 0x03 = .instr .encode ∧ decodeTableWord 8 0x05 = some .chklen := by decide

theorem witness_ReservedCommandIsIllegalOp :
    [0x00, 0x06, 0xff].all (fun cmd : Byte => decide (¬(1 ≤ cmd.toNat ∧ cmd.toNat ≤ 5))) = true ∧
    (oneEvent (.command 0x06)).waiting = none := by decide

theorem witness_IdleCoreStays : State.reset.waiting = none ∧ State.reset.events = [] := by decide

/-- Also: an ENCODE with written cells, and one straight after reset with `SLEN` raised to 4, which has a live source. -/
theorem witness_CommandsEnd : Instr.pack ≠ .encode ∧ ¬(1 ≤ (0x00 : Byte).toNat ∧ (0x00 : Byte).toNat ≤ 5) ∧
    ((withText text1234).waiting = none ∧ (withText text1234).OperandWritten .encode ∧ (withText text1234).AllDec ∧
      (withText text1234).source.canAnswer 10 = true) ∧
    ({ State.reset with SLEN := 4 } : State).source.canAnswer 10 = true :=
  ⟨by decide, by decide, ⟨by decide, text1234_operand.2, text1234_allDec, by decide⟩, by decide⟩

theorem witness_WrittenCellsReadAsWritten :
    (withText text1234).S[0]? = some (Cell.holding 0x31) ∧ (withBytes block1234).B[7]? = some (Cell.holding 0x23) ∧
    (withText text1234).HoldsString text1234 ∧ (withBytes block1234).HoldsBytes block1234 :=
  ⟨by decide, by decide, withText_holds _ (by decide), withBytes_holds _ (by decide)⟩

theorem witness_ChklenOperation :
    [4, 12].all (fun n => decide (4 ≤ (withLen n []).SLEN.toNat ∧ (withLen n []).SLEN.toNat ≤ 12)) = true ∧
    [3, 13, 31].all (fun n => decide ((withLen n []).SLEN.toNat < 4 ∨ 12 < (withLen n []).SLEN.toNat)) = true := by
  decide

/-- `SLEN = 17`; `SLEN = 2` with `g` in `S[0]` and no value in `S[1]`; and `SLEN` 0, 1 and 16 with accepted characters. -/
theorem witness_PackOperation :
    16 < (withLen 17 []).SLEN.toNat ∧
    ((withLen 2 [0x67]).SLEN.toNat ≤ 16 ∧ 0 < (withLen 2 [0x67]).SLEN.toNat ∧ (withLen 2 [0x67]).StringWritten 0 ∧
      (withLen 2 [0x67]).S[0]? = some (Cell.holding 0x67) ∧ hexval 0x67 = none) ∧
    ((withText []).StringWritten 0 ∧ (withText []).AllHex) ∧ ((withText [0x61]).StringWritten 1 ∧ (withText [0x61]).AllHex) ∧
    ((withText (List.replicate 16 0x66)).SLEN.toNat ≤ 16 ∧ (withText (List.replicate 16 0x66)).StringWritten 16 ∧
      (withText (List.replicate 16 0x66)).AllHex) := by
  unfold State.AllHex State.StringWritten; decide

theorem witness_UnpackOperation : 8 < ({ withBytes [] with BLEN := 9 } : State).BLEN.toNat ∧
    ((withBytes []).BLEN.toNat ≤ 8 ∧ (withBytes []).BytesWritten 0) ∧
    ((withBytes block1234).BLEN.toNat ≤ 8 ∧ (withBytes block1234).BytesWritten 8) := by
  unfold State.BytesWritten; decide

/-- Lengths 3 and 13; length 4 with a letter; lengths 4 and 12 with answers. -/
theorem witness_EncodeOperation :
    (withLen 3 text1234).SLEN.toNat < 4 ∧ 12 < (withLen 13 text1234).SLEN.toNat ∧
    (4 ≤ (withText [0x31, 0x32, 0x61, 0x34]).SLEN.toNat ∧ (withText [0x31, 0x32, 0x61, 0x34]).SLEN.toNat ≤ 12 ∧
      (withText [0x31, 0x32, 0x61, 0x34]).StringWritten 2 ∧ (withText [0x31, 0x32, 0x61, 0x34]).S[2]? = some (Cell.holding 0x61) ∧
      isdec 0x61 = false) ∧
    (4 ≤ (withText text1234).SLEN.toNat ∧ (withText text1234).StringWritten 4 ∧ (withText text1234).AllDec ∧
      (withText text1234).source.canAnswer (14 - (withText text1234).SLEN.toNat) = true) ∧
    ((withText (List.replicate 12 0x39)).SLEN.toNat ≤ 12 ∧ (withText (List.replicate 12 0x39)).StringWritten 12 ∧
      (withText (List.replicate 12 0x39)).AllDec ∧ (withText (List.replicate 12 0x39)).source.canAnswer 2 = true) := by
  unfold State.AllDec State.StringWritten; decide

theorem witness_EncodeTakesStubAnswersInOrder :
    4 ≤ (withText text1234).SLEN.toNat ∧ (withText text1234).SLEN.toNat ≤ 12 ∧
    (withText text1234).StringWritten (withText text1234).SLEN.toNat ∧ (withText text1234).AllDec ∧
    (withText text1234).source = .stub tenDraws ∧ 14 - (withText text1234).SLEN.toNat ≤ tenDraws.length :=
  ⟨by decide, by decide, text1234_written, text1234_allDec, rfl, by decide⟩

theorem witness_EncodeFixedPart :
    (withText text1234).OperandWritten .encode ∧ (∃ t, exec .encode (withText text1234) = .next t ∧ t.waiting = none ∧ t.STATUS = 0x00) ∧
    (withText text1234).HoldsString text1234 ∧ (withText text1234).S[3]? = some (Cell.holding 0x34) :=
  ⟨text1234_operand.2, ⟨_, rfl, by decide, by decide⟩, withText_holds _ (by decide), by decide⟩

/-- Also: a waiting core that gets some of its answers, one that gets all, and one that gets none. -/
theorem witness_OnlyEncodeDraws :
    (∃ t, exec .chklen (withText text1234) = .next t) ∧ (∃ t, exec .encode (withText text1234) = .next t) ∧
    (withText text1234).waiting = none ∧ (∃ t, exec .encode (withLen 3 text1234) = .next t) ∧
    (withText text1234).OperandWritten .encode ∧
    ((withLen 3 text1234).SLEN.toNat < 4 ∧ (withLen 3 text1234).OperandWritten .encode) ∧
    (∃ t, (withText []).waiting = none ∧ exec .encode (withText []) = .next t ∧ t.waiting = none ∧
      statusFault t.STATUS ≠ 0) ∧
    ((answeredState 3).waiting = some [1, 4, 1, 2, 3, 4, 0xa] ∧ (answeredState 3).source.canAnswer 1 = true ∧
      ∃ t, step (answeredState 3) = .next t) ∧
    (∃ t, step (answeredState 9) = .next t) ∧
    ((answeredState 0).source.canAnswer 1 = false ∧ ∃ t, step (answeredState 0) = .next t) :=
  ⟨⟨_, rfl⟩, ⟨_, rfl⟩, rfl, ⟨_, rfl⟩, text1234_operand.2,
    ⟨by decide, fun (h : 4 ≤ 3) => absurd h (by decide)⟩, ⟨_, rfl, rfl, by decide, by decide⟩,
    ⟨rfl, by decide, _, rfl⟩, ⟨_, rfl⟩, by decide, _, rfl⟩

/-- A stub with nine answers where ten are needed; and the waiting core with host events, and with a reset or a source
behind them. -/
theorem witness_EncodeWaitsForTheSource :
    ((withText text1234).StringWritten (withText text1234).SLEN.toNat ∧ (withText text1234).AllDec ∧
      ({ withText text1234 with source := .stub (tenDraws.take 9) } : State).source.canAnswer
        (14 - (withText text1234).SLEN.toNat) = false) ∧
    ((waitingState heldEvents).waiting = some [1, 4, 1, 2, 3, 4, 0xa] ∧
      (waitingState heldEvents).source.canAnswer 1 = false ∧
      ∀ e ∈ (waitingState heldEvents).events, e.FromHost) ∧
    (waitingState (heldEvents ++ [.reset])).events = heldEvents ++ .reset :: [] ∧
    (waitingState (heldEvents ++ [.connect .live])).events = heldEvents ++ .connect .live :: [] :=
  ⟨⟨text1234_written, text1234_allDec, by decide⟩, ⟨rfl, by decide, heldEvents_fromHost⟩, rfl, rfl⟩

/-- Nine answers are needed: all nine, one of them, and a live source. -/
theorem witness_WaitingEncodeGoesOn :
    ((answeredState 9).Inv ∧ (answeredState 9).waiting = some [1, 4, 1, 2, 3, 4, 0xa] ∧
      (answeredState 9).source.canAnswer 1 = true ∧ (answeredState 9).source.canAnswer 9 = true ∧
      (answeredState 9).StringWritten (answeredState 9).SLEN.toNat) ∧
    ((answeredState 1).Inv ∧ (answeredState 1).source.canAnswer 1 = true ∧
      (answeredState 1).source.canAnswer 9 = false) ∧
    RandomSource.live.canAnswer 1 = true ∧ RandomSource.live.canAnswer 9 = true :=
  ⟨⟨answeredState_inv 9, rfl, by decide, by decide, text1234_written⟩, ⟨answeredState_inv 1, by decide, by decide⟩, rfl, rfl⟩

/-- Four answers first, six later, behind two held-off host events. -/
theorem witness_WaitIsNotObservable :
    ∃ s t : State, 4 ≤ s.SLEN.toNat ∧ s.SLEN.toNat ≤ 12 ∧ s.StringWritten s.SLEN.toNat ∧ s.AllDec ∧
      s.waiting = none ∧ s.source = .stub (tenDraws.take 4) ∧ (∀ e ∈ heldEvents, e.FromHost) ∧
      s.events = heldEvents ++ .connect (.stub (tenDraws.drop 4)) :: [] ∧
      (tenDraws.take 4).length < 14 - s.SLEN.toNat ∧
      14 - s.SLEN.toNat ≤ (tenDraws.take 4).length + (tenDraws.drop 4).length ∧ exec .encode s = .next t :=
  ⟨{ withText text1234 with
      source := .stub (tenDraws.take 4), events := heldEvents ++ [.connect (.stub (tenDraws.drop 4))] }, _,
    by decide, by decide, text1234_written, text1234_allDec, rfl, rfl, heldEvents_fromHost, rfl, by decide, by decide, rfl⟩

theorem blockWritten_of_bytes (bytes : List Byte) (h : bytes.length = 8) : (withBytes bytes).BlockWritten := by
  have hw : ∀ n, n ≤ 8 → (withBytes bytes).BytesWritten n := fun n hn i hi => by
    have he := (withBytes_holds bytes (by omega)).2 i bytes[i] (by simp)
    rw [he]; rfl
  exact ⟨hw 1 (by omega), fun hl => hw _ (by omega)⟩

/-- `BLEN` 7; length nibbles 13, 15; length nibbles 0, 3, 4, 12. -/
theorem witness_DecodeOperation :
    ({ withBytes block1234 with BLEN := 7 } : State).BLEN ≠ 8 ∧
    (∀ b : Byte, (withBytes (b :: block1234.drop 1)).BlockWritten) ∧
    [0x1d, 0x1f].all (fun b : Byte => decide ((withBytes (b :: block1234.drop 1)).BLEN = 8 ∧
      13 ≤ (lo ((withBytes (b :: block1234.drop 1)).byteAt 0)).toNat)) = true ∧
    [0x10, 0x13, 0x14, 0x1c].all (fun b : Byte => decide ((withBytes (b :: block1234.drop 1)).BLEN = 8 ∧
      (lo ((withBytes (b :: block1234.drop 1)).byteAt 0)).toNat ≤ 12)) = true :=
  ⟨by decide, fun _ => blockWritten_of_bytes _ rfl, by decide, by decide⟩

/-- Blocks with the length nibbles 3, 13 and 4, and a `BLEN` other than 8. -/
theorem witness_DecodeLengthNibbleOutsideRange :
    (∀ b : Byte, (withBytes (b :: block1234.drop 1)).BLEN = 8 ∧
      (withBytes (b :: block1234.drop 1)).B[0]? = some (Cell.holding b) ∧ (withBytes (b :: block1234.drop 1)).BlockWritten) ∧
    (0x13 : Byte).toNat % 16 ≤ 3 ∧ 13 ≤ (0x1d : Byte).toNat % 16 ∧ (0x14 : Byte).toNat % 16 = 4 ∧
    (withBytes []).BLEN ≠ 8 :=
  ⟨fun _ => ⟨rfl, rfl, blockWritten_of_bytes _ rfl⟩, by decide, by decide, by decide, by decide⟩

/-- A block and the same PIN under another control nibble and another fill (95_test_vectors.md S11). -/
theorem witness_DecodeIgnoresControlAndFill :
    (withBytes block1234).BLEN = 8 ∧ (withBytes [0xf4, 0x12, 0x34, 0, 0, 0, 0, 0]).BLEN = 8 ∧
    (withBytes block1234).blockNibble 1 = some 4 ∧ (withBytes [0xf4, 0x12, 0x34, 0, 0, 0, 0, 0]).blockNibble 1 = some 4 ∧
    (∀ k, k < 4 → (withBytes block1234).blockNibble (2 + k) =
        (withBytes [0xf4, 0x12, 0x34, 0, 0, 0, 0, 0]).blockNibble (2 + k) ∧
      ((withBytes block1234).blockNibble (2 + k)).isSome) ∧
    (∃ t, exec .decode (withBytes block1234) = .next t) ∧
    ∃ t, exec .decode (withBytes [0xf4, 0x12, 0x34, 0, 0, 0, 0, 0]) = .next t :=
  ⟨by decide, by decide, by decide, by decide, by decide, ⟨_, rfl⟩, ⟨_, rfl⟩⟩

theorem witness_EncodeThenDecodeRestoresThePin :
    ((withText text1234).HoldsString text1234 ∧ 4 ≤ text1234.length ∧ text1234.length ≤ 12 ∧
      (∀ c ∈ text1234, isdec c = true) ∧ (withText text1234).source.canAnswer (14 - text1234.length) = true) ∧
    ∃ s t u : State, exec .decode s = .next t ∧ statusFault t.STATUS = 0 ∧ exec .encode t = .next u ∧
      u.waiting = none ∧ u.STATUS = 0x00 ∧ ∀ p, p < 16 → u.blockNibble p = s.blockNibble p :=
  ⟨⟨withText_holds _ (by decide), by decide, by decide, by decide, by decide⟩,
    { withBytes block1234 with source := .stub tenDraws }, _, _, rfl, by decide, rfl, by decide, by decide, by decide⟩

theorem witness_FaultWritesOnlyStatus :
    ∃ t, (withText [0x67]).waiting = none ∧ runCommand 0x01 (withText [0x67]) = .next t ∧ t.waiting = none ∧
      statusFault t.STATUS ≠ 0 := ⟨_, by decide, rfl, by decide, by decide⟩

theorem witness_SourceOperandUnchanged : ∃ t u, exec .encode (withText text1234) = .next t ∧
    exec .decode (withBytes block1234) = .next u ∧
    ∃ v, (answeredState 9).waiting = some [1, 4, 1, 2, 3, 4, 0xa] ∧ (answeredState 9).source.canAnswer 1 = true ∧
      step (answeredState 9) = .next v := ⟨_, _, rfl, rfl, _, rfl, by decide, rfl⟩

theorem witness_InstructionFrames : (withText text1234).OperandWritten .pack ∧
    ∃ t, exec .pack (withText text1234) = .next t ∧
    ∃ u, exec .unpack t = .next u ∧ ∃ v, exec .chklen u = .next v ∧
    ∃ w, (answeredState 3).source.canAnswer 1 = true ∧ step (answeredState 3) = .next w ∧ w.waiting ≠ none :=
  ⟨text1234_operand.1, _, rfl, _, rfl, _, rfl, _, by decide, rfl, by decide⟩

theorem witness_DestinationAboveLengthHoldsNoValue :
    ∃ t, (withText text1234).waiting = none ∧ exec .pack (withText text1234) = .next t ∧ t.waiting = none ∧
      statusFault t.STATUS = 0 ∧ 0 < t.BLEN.toNat ∧ t.BLEN.toNat < 8 ∧
    ∃ u, (answeredState 9).Inv ∧ (answeredState 9).source.canAnswer 1 = true ∧ step (answeredState 9) = .next u ∧
      u.waiting = none :=
  ⟨_, by decide, rfl, by decide, by decide, by decide, by decide, _, answeredState_inv 9, by decide, rfl, by decide⟩

/-- Two states with the same string and different old results. -/
theorem witness_OutcomeDependsOnOperandsOnly :
    ∃ s s' t t' : State, s.waiting = none ∧ s'.waiting = none ∧ s.SameOperand .pack s' ∧ s.STATUS ≠ s'.STATUS ∧
      s.BLEN ≠ s'.BLEN ∧ s.OperandWritten .pack ∧ exec .pack s = .next t ∧ exec .pack s' = .next t' :=
  ⟨withText text1234, { withText text1234 with STATUS := 0x04, BLEN := 3 }, _, _, rfl, rfl,
    ⟨rfl, fun _ _ _ => rfl⟩, by decide, by decide, text1234_operand.1, rfl, rfl⟩

theorem witness_CommandsAreIdempotent :
    ∃ t, Instr.decode ≠ .encode ∧ (withBytes block1234).OperandWritten .decode ∧
      exec .decode (withBytes block1234) = .next t := ⟨_, by decide, fun _ => blockWritten_of_bytes _ rfl, rfl⟩

/-- No cell written, with `SLEN = 4` or `BLEN = 8` straight after reset. -/
theorem witness_UnwrittenOperandHasOpenOutcome :
    ¬({ State.reset with SLEN := 4 } : State).OperandWritten .pack ∧
    ¬({ State.reset with SLEN := 4 } : State).OperandWritten .encode ∧
    ¬({ State.reset with BLEN := 8 } : State).OperandWritten .unpack ∧
    ¬({ State.reset with BLEN := 8 } : State).OperandWritten .decode :=
  ⟨fun h => absurd (h (by decide) 0 (by decide) (by simp)) (by decide),
    fun h => absurd (h (by decide) (by decide) 0 (by decide) (by simp)) (by decide),
    fun h => absurd (h (by decide) 0 (by decide)) (by decide),
    fun h => absurd ((h rfl).1 0 (by decide)) (by decide)⟩

theorem witness_SourceConnectedToIdleCore :
    (oneEvent (.connect .live)).waiting = none ∧ (oneEvent (.connect .live)).events = .connect .live :: [] := ⟨rfl, rfl⟩

theorem witness_ReadyCommandUsesNoUnwrittenCell :
    (withText text1234).hostReady .pack = true ∧ (withText text1234).hostReady .encode = true ∧
    (withBytes block1234).hostReady .unpack = true ∧ (withBytes block1234).hostReady .decode = true ∧
    (withText text1234).waiting = none := by decide

/-- The waiting state meets the invariant, and steps. -/
theorem witness_StepKeepsInv : (waitingState [.reset]).Inv ∧ ∃ t, step (waitingState [.reset]) = .next t :=
  ⟨waitingState_inv _, _, rfl⟩

theorem witness_StepKeepsLegalLengths :
    ∃ t, (oneEvent (.access (.writeSLEN 16))).Inv ∧ (oneEvent (.access (.writeSLEN 16))).SLEN.toNat ≤ 16 ∧
      (oneEvent (.access (.writeSLEN 16))).BLEN.toNat ≤ 8 ∧
      (∀ n, .access (.writeSLEN n) ∈ (oneEvent (.access (.writeSLEN 16))).events → n.toNat ≤ 16) ∧
      (∀ m, .access (.writeBLEN m) ∈ (oneEvent (.access (.writeSLEN 16))).events → m.toNat ≤ 8) ∧
      step (oneEvent (.access (.writeSLEN 16))) = .next t :=
  ⟨_, ⟨by decide, fun N hN => by cases hN⟩, by decide, by decide, by simp [oneEvent], by simp [oneEvent], rfl⟩

theorem witness_OnlyCommandsAndResetChangeStatus :
    ∃ t, step (oneEvent (.command 0x00)) = .next t ∧ t.STATUS ≠ (oneEvent (.command 0x00)).STATUS :=
  ⟨_, rfl, by decide⟩

theorem witness_HostWritesTakeEffect :
    (oneEvent (.access (.writeS 15 0xff))).waiting = none ∧
    (oneEvent (.access (.writeS 15 0xff))).events = [.access (.writeS 15 0xff)] ∧
    (oneEvent (.access (.writeSLEN 31))).events = [.access (.writeSLEN 31)] ∧
    (oneEvent (.access (.writeB 7 0))).events = [.access (.writeB 7 0)] ∧
    (oneEvent (.access (.writeBLEN 15))).events = [.access (.writeBLEN 15)] ∧
    (oneEvent (.access (.writeSTATUS 0xff))).events = [.access (.writeSTATUS 0xff)] := by decide

theorem witness_HostReadsChangeNothing :
    (oneEvent (.access (.readS 0))).waiting = none ∧ (oneEvent (.access (.readS 0))).S[0]? = some (Cell.holding 0x31) ∧
    (oneEvent (.access (.readS 0))).events = [.access (.readS 0)] ∧
    (oneEvent (.access .readSLEN)).events = [.access .readSLEN] ∧
    (oneEvent (.access (.readB 0))).events = [.access (.readB 0)] ∧
    (oneEvent (.access .readBLEN)).events = [.access .readBLEN] ∧
    (oneEvent (.access .readSTATUS)).events = [.access .readSTATUS] := by decide

theorem witness_ResetInput : (oneEvent .reset).waiting = none ∧ (oneEvent .reset).events = [.reset] := by decide

theorem witness_FirstCommandAfterReset :
    State.reset = { State.reset with S := State.reset.S, B := State.reset.B } := rfl

end Sys2Proof.Tests
end

section
/-! PROOFS. The family of 00_scope.md: the nibbles of a byte (R8), and what a command leaves as a function of its source
operand and its draws (R13). -/

namespace Sys2Proof.Machine

/-! ### Nibbles (R8) -/

/-- The byte joined from two nibbles, from what its high and its low nibble are. -/
theorem joinNibbles_toNat (h l : Nibble) : (joinNibbles h l).toNat = 16 * h.toNat + l.toNat := by
  have hhi : h.toNat = (joinNibbles h l).toNat / 16 := by rw [← hi_toNat, hi_joinNibbles]
  have hlo : l.toNat = (joinNibbles h l).toNat % 16 := by rw [← lo_toNat, lo_joinNibbles]
  omega

/-- Settles O4, from the halves of a byte and the byte joined from two. -/
theorem nibblesOfAByte : Obligations.NibblesOfAByte :=
  ⟨fun b => ⟨hi_toNat b, lo_toNat b⟩, joinNibbles_toNat⟩

/-! ### Operations on written cells: what each does, with the open outcome of R29 left out -/

theorem exec_pack_badCount {s : State} (hlen : 16 < s.SLEN.toNat) : exec .pack s = .next (s.raise .badCount) := by
  rcases exec_pack_cases s with ⟨_, h⟩ | ⟨hle, _⟩ | ⟨_, hle, _⟩ | ⟨hle, _⟩
  · exact h
  all_goals omega

theorem exec_pack_badDigit {s : State} (hlen : s.SLEN.toNat ≤ 16) (hscan : s.ScanWritten isHex) (hbad : ¬s.AllHex) :
    exec .pack s = .next (s.raise .badDigit) := by
  have hnone := (pack_eq_none s).mpr hbad
  rcases exec_pack_cases s with ⟨hgt, _⟩ | ⟨_, _, _, h⟩ | ⟨v, _, _, hv, _⟩ | ⟨_, hopen, _⟩
  · omega
  · exact h
  · simp [pack, hv] at hnone
  · exact absurd hscan hopen

theorem exec_pack_eq {s : State} {v : List Nibble} (hlen : s.SLEN.toNat ≤ 16) (hw : s.StringWritten s.SLEN.toNat)
    (hv : hexvals s.stringOperand = some v) : exec .pack s = .next (s.completeB (packNibbles v)) := by
  rcases exec_pack_cases s with ⟨hgt, _⟩ | ⟨_, _, hnone, _⟩ | ⟨w, _, _, hw, h⟩ | ⟨_, hopen, _⟩
  · omega
  · simp [pack, hv] at hnone
  · rw [h, Option.some.inj (hv.symm.trans hw)]
  · exact absurd (scanWritten_of_written hw) hopen

theorem exec_unpack_badCount {s : State} (hlen : 8 < s.BLEN.toNat) : exec .unpack s = .next (s.raise .badCount) := by
  rcases exec_unpack_cases s with ⟨_, h⟩ | ⟨hle, _⟩ | ⟨hle, _⟩
  · exact h
  all_goals omega

theorem exec_unpack_eq {s : State} (hlen : s.BLEN.toNat ≤ 8) (hw : s.BytesWritten s.BLEN.toNat) :
    exec .unpack s = .next (s.completeS (unpack s.bytesOperand) false) := by
  rcases exec_unpack_cases s with ⟨hgt, _⟩ | ⟨_, _, h⟩ | ⟨_, hopen, _⟩
  · omega
  · exact h
  · exact absurd hw hopen

theorem exec_encode_invalidPinLength {s : State} (hlen : lenOk s.SLEN.toNat = false) :
    exec .encode s = .next (s.raise .invalidPinLength) := by
  rcases exec_encode_cases s with ⟨_, h⟩ | ⟨hok, _⟩ | ⟨hok, _⟩ | ⟨hok, _⟩
  · exact h
  all_goals simp [hlen] at hok

theorem exec_encode_badDigit {s : State} (hlen : lenOk s.SLEN.toNat = true) (hscan : s.ScanWritten isdec)
    (hbad : ¬s.AllDec) : exec .encode s = .next (s.raise .badDigit) := by
  rcases exec_encode_cases s with ⟨hno, _⟩ | ⟨_, _, _, h⟩ | ⟨_, _, hall, _⟩ | ⟨_, hopen, _⟩
  · simp [hlen] at hno
  · exact h
  · exact absurd hall hbad
  · exact absurd hscan hopen

theorem exec_decode_badCount {s : State} (hlen : s.BLEN.toNat ≠ 8) : exec .decode s = .next (s.raise .badCount) := by
  rcases exec_decode_cases s with ⟨_, h⟩ | ⟨heq, _⟩ | ⟨heq, _⟩ | ⟨heq, _⟩
  · exact h
  all_goals exact absurd heq hlen

theorem exec_decode_overrun {s : State} (hlen : s.BLEN.toNat = 8) (hw : s.BlockWritten) (hL : 12 < s.blockLength) :
    exec .decode s = .next (s.raise .decodeOverrun) := by
  rcases exec_decode_cases s with ⟨hne, _⟩ | ⟨_, _, _, h⟩ | ⟨_, _, hle, _⟩ | ⟨_, hopen, _⟩
  · exact absurd hlen hne
  · exact h
  · omega
  · exact absurd hw hopen

theorem exec_decode_eq {s : State} (hlen : s.BLEN.toNat = 8) (hw : s.BlockWritten) (hL : s.blockLength ≤ 12) :
    exec .decode s = .next (s.completeS (decodePin s.blockLength s.pinBytes) (!lenOk s.blockLength)) := by
  rcases exec_decode_cases s with ⟨hne, _⟩ | ⟨_, _, hgt, _⟩ | ⟨_, _, _, h⟩ | ⟨_, hopen, _⟩
  · exact absurd hlen hne
  · omega
  · exact h
  · exact absurd hw hopen

/-! ### Two states with the same cells -/

section SameCells

variable {s s' : State} {n : Nat}

theorem stringWritten_of_sameString (hS : s.SameString n s') (hw : s.StringWritten n) : s'.StringWritten n :=
  fun k hk => hS k hk ▸ hw k hk

theorem bytesWritten_of_sameBytes (hB : s.SameBytes n s') (hw : s.BytesWritten n) : s'.BytesWritten n :=
  fun i hi => hB i hi ▸ hw i hi

/-- Written cells that are the same read the same, whatever the counters of the free values are. -/
theorem charAt_eq_of_sameString (hS : s.SameString n s') (hw : s.StringWritten n) {k : Nat} (hk : k < n) :
    s.charAt k = s'.charAt k := by
  simp only [State.charAt, ← hS k hk, cellValue_congr (hw k hk) s.reads s'.reads]

theorem byteAt_eq_of_sameBytes (hB : s.SameBytes n s') (hw : s.BytesWritten n) {i : Nat} (hi : i < n) :
    s.byteAt i = s'.byteAt i := by
  simp only [State.byteAt, ← hB i hi, cellValue_congr (hw i hi) s.reads s'.reads]

theorem stringOperand_eq_of_sameString (hlen : s.SLEN = s'.SLEN) (hS : s.SameString s.SLEN.toNat s')
    (hw : s.StringWritten s.SLEN.toNat) : s.stringOperand = s'.stringOperand := by
  unfold State.stringOperand
  rw [← hlen]
  exact List.map_congr_left fun k hk => charAt_eq_of_sameString hS hw (List.mem_range.mp hk)

theorem bytesOperand_eq_of_sameBytes (hlen : s.BLEN = s'.BLEN) (hB : s.SameBytes s.BLEN.toNat s')
    (hw : s.BytesWritten s.BLEN.toNat) : s.bytesOperand = s'.bytesOperand := by
  unfold State.bytesOperand
  rw [← hlen]
  exact List.map_congr_left fun i hi => byteAt_eq_of_sameBytes hB hw (List.mem_range.mp hi)

variable {accepts : Byte → Bool}

theorem scanWritten_of_sameString (hlen : s.SLEN = s'.SLEN) (hS : s.SameString s.SLEN.toNat s')
    (hscan : s.ScanWritten accepts) : s'.ScanWritten accepts := by
  intro k hk haccepted
  rw [← hlen] at hk
  rw [← hS k hk]
  exact hscan k hk fun j hj => hS j (by omega) ▸ haccepted j hj

/-- A scan that meets a character it does not accept meets it in every state with the same cells: the cells after it,
which may hold no value, are not read (43_bcd_pack_unpack.md R152, 41_encode_assembler.md R111). -/
theorem rejected_of_sameString (hlen : s.SLEN = s'.SLEN) (hS : s.SameString s.SLEN.toNat s')
    (hscan : s.ScanWritten accepts) (hbad : ¬∀ k < s.SLEN.toNat, accepts (s.charAt k) = true) :
    ¬∀ k < s'.SLEN.toNat, accepts (s'.charAt k) = true := by
  obtain ⟨k, c, hk, _, hcell, hc⟩ := bad_of_scan hscan hbad
  intro hall
  have hgood := hall k (hlen ▸ hk)
  rw [charAt_of_written ((hS k hk).symm.trans hcell), hc] at hgood
  cases hgood

theorem blockLength_eq_of_sameBytes (hB : s.SameBytes 8 s') (hw : s.BlockWritten) :
    s.blockLength = s'.blockLength := by
  have hB1 : s.SameBytes 1 s' := fun i hi => hB i (by omega)
  rw [State.blockLength, State.blockLength, byteAt_eq_of_sameBytes hB1 hw.1 Nat.one_pos]

/-- The part of the block that DECODE reads for a length nibble up to 12 lies within the eight cells. -/
theorem sameBytes_pin (hB : s.SameBytes 8 s') (hL : s.blockLength ≤ 12) :
    s.SameBytes (1 + (s.blockLength + 1) / 2) s' := fun i hi => hB i (by omega)

theorem blockWritten_of_sameBytes (hB : s.SameBytes 8 s') (hw : s.BlockWritten) : s'.BlockWritten := by
  have hL := blockLength_eq_of_sameBytes hB hw
  obtain ⟨hfirst, hpin⟩ := hw
  refine ⟨bytesWritten_of_sameBytes (fun i hi => hB i (by omega)) hfirst, fun hle => ?_⟩
  rw [← hL] at hle ⊢
  exact bytesWritten_of_sameBytes (sameBytes_pin hB hle) (hpin hle)

theorem pinBytes_eq_of_sameBytes (hB : s.SameBytes 8 s') (hw : s.BlockWritten) (hle : s.blockLength ≤ 12) :
    s.pinBytes = s'.pinBytes := by
  unfold State.pinBytes
  rw [← blockLength_eq_of_sameBytes hB hw, ceil2_eq]
  refine List.map_congr_left fun i hi => ?_
  have hi := List.mem_range.mp hi
  exact byteAt_eq_of_sameBytes (sameBytes_pin hB hle) (hw.2 hle) (by omega)

end SameCells

/-! ### Two states that get the same outcome (R13) -/

/-- The same wait or, when the operation is over, the same `STATUS` and on completion the same destination. -/
def SameOutcome (i : Instr) (t t' : State) : Prop :=
  t.waiting = t'.waiting ∧
  (t.waiting = none → t.STATUS = t'.STATUS ∧
    (statusFault t.STATUS = 0 →
      (i = .pack ∨ i = .encode → t.B = t'.B ∧ t.BLEN = t'.BLEN) ∧
      (i = .unpack ∨ i = .decode → t.S = t'.S ∧ t.SLEN = t'.SLEN)))

/-- Both states go on, to the same outcome. -/
def SameEnd (i : Instr) (s s' : State) : Prop :=
  ∃ t t', exec i s = .next t ∧ exec i s' = .next t' ∧ SameOutcome i t t'

section SameEnd

variable {i : Instr} {s s' : State} (hidle : s.waiting = none) (hidle' : s'.waiting = none)
include hidle hidle'

theorem sameOutcome_raise {f : FaultCode} (hf : faultCodeBits f ≠ 0) : SameOutcome i (s.raise f) (s'.raise f) :=
  ⟨by simp [hidle, hidle'], fun _ => ⟨rfl, fun hnone => absurd hnone (by simpa using hf)⟩⟩

theorem sameOutcome_completeB (bytes : List Byte) :
    SameOutcome .pack (s.completeB bytes) (s'.completeB bytes) :=
  ⟨by simp [hidle, hidle'], fun _ => ⟨rfl, fun _ => ⟨by simp, by simp⟩⟩⟩

theorem sameOutcome_completeS (hi : i = .unpack ∨ i = .decode) (text : List Byte) (malf : Bool) :
    SameOutcome i (s.completeS text malf) (s'.completeS text malf) := by
  refine ⟨by simp [hidle, hidle'], fun _ => ⟨rfl, fun _ => ⟨fun hB => ?_, by simp⟩⟩⟩
  rcases hi with rfl | rfl <;> simp at hB

theorem sameOutcome_complete : SameOutcome .chklen s.complete s'.complete :=
  ⟨by simp [hidle, hidle'], fun _ => ⟨rfl, fun _ => ⟨by simp, by simp⟩⟩⟩

omit hidle hidle' in
/-- The assembler reads the source and the number of draws answered before, and nothing else (41_encode_assembler.md
R111, R116). -/
theorem sameOutcome_assemble (hsrc : s.source = s'.source) (hdraws : s.draws = s'.draws) (N : List Nibble) :
    SameOutcome .encode (s.assemble N) (s'.assemble N) := by
  have hgot : s.drawn (16 - N.length) = s'.drawn (16 - N.length) := by simp only [State.drawn, hsrc, hdraws]
  rw [assemble_eq hgot, assemble_eq rfl]
  split
  · exact ⟨rfl, by simp⟩
  · exact ⟨rfl, fun _ => ⟨rfl, fun _ => ⟨by simp, by simp⟩⟩⟩

theorem sameEnd_pack (hop : s.SameOperand .pack s') (hw : s.OperandWritten .pack) : SameEnd .pack s s' := by
  obtain ⟨hlen, hS⟩ := hop
  rcases exec_pack_cases s with ⟨hgt, h⟩ | ⟨hle, hscan, hnone, h⟩ | ⟨v, hle, hstr, hv, h⟩ | ⟨hle, hopen, _⟩
  · exact ⟨_, _, h, exec_pack_badCount (hlen ▸ hgt), sameOutcome_raise hidle hidle' (by decide)⟩
  · have hbad : ¬s'.AllHex := rejected_of_sameString hlen (hS hle) hscan ((pack_eq_none s).mp hnone)
    exact ⟨_, _, h, exec_pack_badDigit (hlen ▸ hle) (scanWritten_of_sameString hlen (hS hle) hscan) hbad,
      sameOutcome_raise hidle hidle' (by decide)⟩
  · rw [stringOperand_eq_of_sameString hlen (hS hle) hstr] at hv
    have hstr' := stringWritten_of_sameString (hS hle) hstr
    rw [hlen] at hle hstr'
    exact ⟨_, _, h, exec_pack_eq hle hstr' hv, sameOutcome_completeB hidle hidle' _⟩
  · exact absurd (hw hle) hopen

theorem sameEnd_unpack (hop : s.SameOperand .unpack s') (hw : s.OperandWritten .unpack) : SameEnd .unpack s s' := by
  obtain ⟨hlen, hB⟩ := hop
  rcases exec_unpack_cases s with ⟨hgt, h⟩ | ⟨hle, hbytes, h⟩ | ⟨hle, hopen, _⟩
  · exact ⟨_, _, h, exec_unpack_badCount (hlen ▸ hgt), sameOutcome_raise hidle hidle' (by decide)⟩
  · rw [bytesOperand_eq_of_sameBytes hlen (hB hle) hbytes] at h
    have hbytes' := bytesWritten_of_sameBytes (hB hle) hbytes
    rw [hlen] at hle hbytes'
    exact ⟨_, _, h, exec_unpack_eq hle hbytes', sameOutcome_completeS hidle hidle' (.inl rfl) _ _⟩
  · exact absurd (hw hle) hopen

theorem sameEnd_encode (hop : s.SameOperand .encode s') (hw : s.OperandWritten .encode) : SameEnd .encode s s' := by
  obtain ⟨hlen, hS, hsrc, hdraws⟩ := hop
  rcases exec_encode_cases s with ⟨hno, h⟩ | ⟨hok, hscan, hbad, h⟩ | ⟨hok, hstr, hall, h⟩ | ⟨hok, hopen, _⟩
  · exact ⟨_, _, h, exec_encode_invalidPinLength (hlen ▸ hno), sameOutcome_raise hidle hidle' (by decide)⟩
  · exact ⟨_, _, h, exec_encode_badDigit (hlen ▸ hok) (scanWritten_of_sameString hlen (hS hok) hscan)
      (rejected_of_sameString hlen (hS hok) hscan hbad), sameOutcome_raise hidle hidle' (by decide)⟩
  · have hoperand := stringOperand_eq_of_sameString hlen (hS hok) hstr
    have hall' : s'.AllDec := by rw [← all_isdec_eq] at hall ⊢; rwa [← hoperand]
    have hstr' := stringWritten_of_sameString (hS hok) hstr
    rw [hoperand] at h
    rw [hlen] at hok hstr'
    exact ⟨_, _, h, exec_encode_eq hok hstr' hall', sameOutcome_assemble hsrc hdraws _⟩
  · obtain ⟨hmin, hmax⟩ := (lenOk_eq_true _).mp hok
    exact absurd (hw hmin hmax) hopen

theorem sameEnd_decode (hop : s.SameOperand .decode s') (hw : s.OperandWritten .decode) : SameEnd .decode s s' := by
  obtain ⟨hlen, hB⟩ := hop
  rcases exec_decode_cases s with ⟨hne, h⟩ | ⟨heq, hblock, hgt, h⟩ | ⟨heq, hblock, hle, h⟩ | ⟨heq, hopen, _⟩
  · exact ⟨_, _, h, exec_decode_badCount (hlen ▸ hne), sameOutcome_raise hidle hidle' (by decide)⟩
  · have hL := blockLength_eq_of_sameBytes (hB heq) hblock
    exact ⟨_, _, h, exec_decode_overrun (hlen ▸ heq) (blockWritten_of_sameBytes (hB heq) hblock) (hL ▸ hgt),
      sameOutcome_raise hidle hidle' (by decide)⟩
  · have hL := blockLength_eq_of_sameBytes (hB heq) hblock
    have hpin := pinBytes_eq_of_sameBytes (hB heq) hblock hle
    rw [hL, hpin] at h
    exact ⟨_, _, h, exec_decode_eq (hlen ▸ heq) (blockWritten_of_sameBytes (hB heq) hblock) (hL ▸ hle),
      sameOutcome_completeS hidle hidle' (.inr rfl) _ _⟩
  · exact absurd (hw (BitVec.eq_of_toNat_eq heq)) hopen

theorem sameEnd_chklen (hop : s.SameOperand .chklen s') : SameEnd .chklen s s' := by
  have hlen : s.SLEN = s'.SLEN := hop
  refine ⟨_, _, exec_chklen s, exec_chklen s', ?_⟩
  rw [hlen]
  split
  · exact sameOutcome_complete hidle hidle'
  · exact sameOutcome_raise hidle hidle' (by decide)

/-- The same operand, written where it is read, leads to the same outcome. -/
theorem sameEnd_of_sameOperand (hop : s.SameOperand i s') (hw : s.OperandWritten i) : SameEnd i s s' := by
  cases i with
  | pack => exact sameEnd_pack hidle hidle' hop hw
  | unpack => exact sameEnd_unpack hidle hidle' hop hw
  | encode => exact sameEnd_encode hidle hidle' hop hw
  | decode => exact sameEnd_decode hidle hidle' hop hw
  | chklen => exact sameEnd_chklen hidle hidle' hop

end SameEnd

/-- Settles O31: the two runs are those of `sameEnd_of_sameOperand`. -/
theorem outcomeDependsOnOperandsOnly : Obligations.OutcomeDependsOnOperandsOnly := by
  intro i s s' t t' hidle hidle' hop hw h h'
  obtain ⟨u, u', hu, hu', hsame⟩ := sameEnd_of_sameOperand hidle hidle' hop hw
  cases h.symm.trans hu
  cases h'.symm.trans hu'
  exact hsame

end Sys2Proof.Machine
end

section
/-! PROOFS. The family of 10_state.md: what a read of a written cell gives (R21, R23, R29), what an operation can leave
and what it leaves alone (R34, R38, R39), and what every step keeps (R22, R24, R25). -/

namespace Sys2Proof.Machine

/-! ### The step, by what there is to do -/

theorem step_waiting {s : State} {N : List Nibble} (h : s.waiting = some N) : step s = .next (s.stepWaiting N) := by
  simp only [step, h]

theorem step_event {s : State} {e : Event} {rest : List Event} (hidle : s.waiting = none) (he : s.events = e :: rest) :
    step s = serve e (s.takeEvent rest) := by
  simp only [step, hidle, he]

theorem step_quiet {s : State} (hidle : s.waiting = none) (he : s.events = []) : step s = .next s := by
  simp only [step, hidle, he]

/-- A waiting ENCODE goes on with its assembly as soon as the source answers. -/
theorem step_goesOn {s : State} {N : List Nibble} (h : s.waiting = some N) (hc : s.source.canAnswer 1 = true) :
    step s = .next (s.assemble N) := by
  rw [step_waiting h, State.stepWaiting, if_pos hc]

theorem runCommand_of_decode {cmd : Byte} {i : Instr} (h : decode cmd = .instr i) (s : State) :
    runCommand cmd s = exec i s := by
  simp only [runCommand, h]

theorem decode_of_decodeTableWord {nbits w : Nat} {i : Instr} (h : decodeTableWord nbits w = some i) :
    decode (commandByte nbits w) = .instr i := by
  unfold decodeTableWord at h
  split at h
  · rename_i j hj
    rw [hj, Option.some.inj h]
  · cases h

/-- Settles O9: the event is taken, then served by the operation it decodes to. -/
theorem stepRunsDecodedCommand : Obligations.StepRunsDecodedCommand := by
  refine ⟨fun s cmd rest i hidle he hcmd => ?_, fun s nbits w i hw => ?_⟩
  · rw [step_event hidle he]
    exact runCommand_of_decode hcmd _
  · rw [step_event (s := s.withFetchWord nbits w) rfl rfl]
    exact runCommand_of_decode (decode_of_decodeTableWord hw) _

/-! ### Reading written cells (R21, R23, R29) -/

theorem stringOperand_of_holdsString {s : State} {text : List Byte} (h : s.HoldsString text) :
    s.stringOperand = text := by
  obtain ⟨hlen, hcells⟩ := h
  refine List.ext_getElem (by rw [stringOperand_length, hlen]) fun k _ hk => ?_
  rw [List.getElem_eq_iff, stringOperand_getElem? (hlen ▸ hk),
    charAt_of_written (hcells k _ (List.getElem?_eq_getElem hk))]

theorem bytesOperand_of_holdsBytes {s : State} {bytes : List Byte} (h : s.HoldsBytes bytes) :
    s.bytesOperand = bytes := by
  obtain ⟨hlen, hcells⟩ := h
  refine List.ext_getElem (by rw [bytesOperand_length, hlen]) fun i _ hi => ?_
  rw [List.getElem_eq_iff, bytesOperand_getElem? (hlen ▸ hi),
    byteAt_of_written (hcells i _ (List.getElem?_eq_getElem hi))]

/-- Settles O13, cell by cell. -/
theorem writtenCellsReadAsWritten : Obligations.WrittenCellsReadAsWritten := fun _ =>
  ⟨fun _ _ => charAt_of_written, fun _ _ => byteAt_of_written, fun _ => stringOperand_of_holdsString,
    fun _ => bytesOperand_of_holdsBytes⟩

/-! ### The host's accesses (R35) -/

@[simp] theorem hostAccess_STATUS (a : HostAccess) (s : State) : (s.hostAccess a).STATUS = s.STATUS := by
  cases a <;> rfl

@[simp] theorem hostAccess_waiting (a : HostAccess) (s : State) : (s.hostAccess a).waiting = s.waiting := by
  cases a <;> rfl

@[simp] theorem hostAccess_events (a : HostAccess) (s : State) : (s.hostAccess a).events = s.events := by
  cases a <;> rfl

/-- A step of an idle core on a host access is that access. -/
theorem step_access {s : State} {a : HostAccess} {rest : List Event} (hidle : s.waiting = none)
    (he : s.events = .access a :: rest) : step s = .next ((s.takeEvent rest).hostAccess a) :=
  step_event hidle he

theorem set_getElem? {n : Nat} (cells : Vector Cell n) (k : Fin n) (cell : Cell) (j : Nat) :
    (cells.set k.val cell)[j]? = if j = k.val then some cell else cells[j]? := by
  simp only [Vector.getElem?_set, eq_comm (a := k.val)]

/-- Settles O39: each write is what `State.hostAccess` says of it. -/
theorem hostWritesTakeEffect : Obligations.HostWritesTakeEffect := fun s _ hidle =>
  ⟨fun k _ he => ⟨_, step_access hidle he, rfl, set_getElem? s.S k _⟩, fun _ he => step_access hidle he,
    fun i _ he => ⟨_, step_access hidle he, rfl, set_getElem? s.B i _⟩, fun _ he => step_access hidle he,
    fun _ he => step_access hidle he⟩

/-- Settles O40: each read is what `State.hostAccess` says of it, and a written cell is read as written. -/
theorem hostReadsChangeNothing : Obligations.HostReadsChangeNothing := fun _ _ hidle =>
  ⟨fun _ he => ⟨_, _, step_access hidle he, rfl, fun _ => charAt_of_written⟩, fun he => step_access hidle he,
    fun _ he => ⟨_, _, step_access hidle he, rfl, fun _ => byteAt_of_written⟩, fun he => step_access hidle he,
    fun he => step_access hidle he⟩

/-! ### Reset (R36) -/

/-- An idle core has no part of a block that could be unsound. -/
theorem waitingOk_of_idle {s : State} (hidle : s.waiting = none) : s.WaitingOk := by
  intro N hN
  rw [hidle] at hN
  cases hN

/-- Settles O36: `STATUS` is 0x00 and no ENCODE waits. -/
theorem invAtReset : Obligations.InvAtReset := ⟨by decide, waitingOk_of_idle rfl⟩

/-- A cell of a buffer that is empty throughout holds no value. -/
theorem holdsNoValue_replicate {n k : Nat} (hk : k < n) : HoldsNoValue (Vector.replicate n Cell.empty)[k]? := by
  rw [Vector.getElem?_replicate, if_pos hk]
  rfl

/-- Settles O41: the lengths and `STATUS` by value, the buffers cell by cell. -/
theorem resetState : Obligations.ResetState :=
  ⟨rfl, rfl, rfl, fun _ => holdsNoValue_replicate, fun _ => holdsNoValue_replicate, rfl, by decide, by decide,
    by decide⟩

end Sys2Proof.Machine
end

section
/-! PROOFS. The family of 10_state.md, the operations: what each can leave, said once (`Leaves`), and the source
operands, the frames, the destinations and the open outcome read from it. -/

namespace Sys2Proof.Machine

/-! ### What the assembler leaves -/

/-- The assembler reads no cell and moves no event: it writes the block or the nibbles it waits with. -/
theorem assemble_frame (s : State) (N : List Nibble) :
    s.assemble N = { s with
      B := (s.assemble N).B, BLEN := (s.assemble N).BLEN, STATUS := (s.assemble N).STATUS
      waiting := (s.assemble N).waiting, source := (s.assemble N).source, draws := (s.assemble N).draws } := by
  rcases assemble_cases s N with ⟨got, _, _, h⟩ | ⟨got, _, _, h⟩ <;> rw [h] <;> rfl

@[simp] theorem assemble_S (s : State) (N : List Nibble) : (s.assemble N).S = s.S := by rw [assemble_frame]

@[simp] theorem assemble_SLEN (s : State) (N : List Nibble) : (s.assemble N).SLEN = s.SLEN := by rw [assemble_frame]

@[simp] theorem assemble_events (s : State) (N : List Nibble) : (s.assemble N).events = s.events := by
  rw [assemble_frame]

@[simp] theorem assemble_reads (s : State) (N : List Nibble) : (s.assemble N).reads = s.reads := by
  rw [assemble_frame]

/-- Up to sixteen nibbles lead to a wait with fewer than sixteen and no register written, or to a block of eight bytes
(41_encode_assembler.md R111, 20_memory.md R58). -/
theorem assemble_ends (s : State) {N : List Nibble} (hN : N.length ≤ 16) :
    (∃ got n, N.length + got.length < 16 ∧ s.assemble N = (s.afterDraws n).wait (N ++ got)) ∨
    ∃ bytes n, bytes.length = 8 ∧ s.assemble N = ((s.afterDraws n).completeB bytes).endWait := by
  rcases assemble_cases s N with ⟨got, _, hlt, h⟩ | ⟨got, hgot, hge, h⟩
  · exact .inl ⟨got, _, hlt, h⟩
  · have hle : got.length ≤ 16 - N.length := hgot ▸ drawn_length s _
    exact .inr ⟨_, _, by rw [packNibbles_length, List.length_append]; omega, h⟩

/-- An assembly that waits has written no register. -/
theorem assemble_unfinished {s : State} {N : List Nibble} (h : (s.assemble N).waiting ≠ none) :
    (s.assemble N).B = s.B ∧ (s.assemble N).BLEN = s.BLEN ∧ (s.assemble N).STATUS = s.STATUS := by
  rcases assemble_cases s N with ⟨got, _, _, hN⟩ | ⟨got, _, _, hN⟩ <;> rw [hN] at h ⊢
  · exact ⟨rfl, rfl, rfl⟩
  · exact absurd rfl h

/-! ### A sound part of a block -/

/-- What `WaitingOk` asks of the nibbles of an ENCODE, but for their number being below sixteen: the length is legal,
and control, length and digits are laid out, those of the string in `S` if it is written. -/
def State.SoundStart (s : State) (N : List Nibble) : Prop :=
  lenOk s.SLEN.toNat = true ∧ 2 + s.SLEN.toNat ≤ N.length ∧
  (s.StringWritten s.SLEN.toNat →
    N[0]? = some 1 ∧ N[1]? = some (BitVec.ofNat 4 s.SLEN.toNat) ∧
    ∀ k : Nat, k < s.SLEN.toNat → ∃ c, s.S[k]? = some (Cell.holding c) ∧
      isdec c = true ∧ ∃ v, N[2 + k]? = some v ∧ v.toNat + 0x30 = c.toNat)

theorem soundStart_of_waiting {s : State} {N : List Nibble} (h : s.WaitingOk) (hN : s.waiting = some N) :
    s.SoundStart N ∧ N.length < 16 := by
  obtain ⟨hlen, hlow, hhigh, hnibbles⟩ := h N hN
  exact ⟨⟨hlen, hlow, hnibbles⟩, hhigh⟩

theorem waitingOk_of_soundStart {s : State} {N : List Nibble} (hN : s.waiting = some N) (h : s.SoundStart N)
    (hlt : N.length < 16) : s.WaitingOk := by
  intro M hM
  cases hN.symm.trans hM
  obtain ⟨hlen, hlow, hnibbles⟩ := h
  exact ⟨hlen, hlow, hlt, hnibbles⟩

/-- Draws go behind what is laid out. -/
theorem State.SoundStart.append {s : State} {N : List Nibble} (h : s.SoundStart N) (got : List Nibble) :
    s.SoundStart (N ++ got) := by
  obtain ⟨hlen, hlow, hnibbles⟩ := h
  refine ⟨hlen, by rw [List.length_append]; omega, fun hw => ?_⟩
  obtain ⟨hcontrol, hlength, hdigits⟩ := hnibbles hw
  refine ⟨?_, ?_, fun k hk => ?_⟩
  · rwa [List.getElem?_append_left (by omega)]
  · rwa [List.getElem?_append_left (by omega)]
  · rw [List.getElem?_append_left (by omega)]
    exact hdigits k hk

/-- Control, length and digits of a written string of decimal characters (41_encode_assembler.md R111). -/
theorem soundStart_pinHeader {s : State} (hlen : lenOk s.SLEN.toNat = true) (hw : s.StringWritten s.SLEN.toNat)
    (hdec : s.AllDec) : s.SoundStart (pinHeader s.stringOperand) := by
  refine ⟨hlen, by rw [pinHeader_length, stringOperand_length], fun _ => ⟨rfl, ?_, fun k hk => ?_⟩⟩
  · simp [pinHeader]
  · obtain ⟨c, hc⟩ := cellWritten_eq_true.mp (hw k hk)
    have hdigit : isdec c = true := charAt_of_written hc ▸ hdec k hk
    refine ⟨c, hc, hdigit, digitVal c, ?_, digitVal_toNat hdigit⟩
    simp [pinHeader, Nat.add_comm 2 k, stringOperand_getElem? hk, charAt_of_written hc]

/-- Of a string that is not written whole nothing is asked but the number of nibbles (R29). -/
theorem soundStart_of_unwritten {s : State} {N : List Nibble} (hlen : lenOk s.SLEN.toNat = true)
    (hlow : 2 + s.SLEN.toNat ≤ N.length) (hscan : ¬s.ScanWritten isdec) : s.SoundStart N :=
  ⟨hlen, hlow, fun hw => absurd (scanWritten_of_written hw) hscan⟩

/-- An assembly that starts from sound nibbles keeps the invariant, whether it completes or waits. -/
theorem assemble_inv {s : State} {N : List Nibble} (hstatus : s.STATUS ∈ legalStatus) (hN : s.SoundStart N)
    (hle : N.length ≤ 16) : (s.assemble N).Inv := by
  rcases assemble_ends s hle with ⟨got, n, hlt, h⟩ | ⟨bytes, n, _, h⟩ <;> rw [h]
  · exact ⟨hstatus, waitingOk_of_soundStart (N := N ++ got) rfl (hN.append got) (by rwa [List.length_append])⟩
  · exact ⟨statusByte_complete_legal false, waitingOk_of_idle rfl⟩

/-! ### What an operation can leave -/

/-- What operation `i` can leave of the state `r`: a fault in `STATUS` and nothing else (60_exceptions.md R180), a
completion into the operation's destination that fits it (10_state.md R34), or what the assembler makes of a sound part
of a block. -/
inductive Leaves (i : Instr) (r : State) : State → Prop
  | fault (v : Byte) (hlegal : v ∈ legalStatus) (hfault : statusFault v ≠ 0) : Leaves i r (r.setStatus v)
  | valid (hi : i = .chklen) : Leaves i r r.complete
  | intoB (hi : i = .pack) (v : Byte) (bytes : List Byte) (hlegal : v ∈ legalStatus) (hdone : statusFault v = 0)
      (hfit : bytes.length ≤ 8) : Leaves i r ((r.completeB bytes).setStatus v)
  | intoS (hi : i = .unpack ∨ i = .decode) (v : Byte) (text : List Byte) (hlegal : v ∈ legalStatus)
      (hdone : statusFault v = 0) (hfit : text.length ≤ 16) : Leaves i r ((r.completeS text false).setStatus v)
  | assembled (hi : i = .encode) (N : List Nibble) (hsound : r.SoundStart N) (hle : N.length ≤ 16) :
      Leaves i r (r.assemble N)

namespace Leaves

variable {i : Instr} {r : State}

theorem raised {f : FaultCode} (hf : faultCodeBits f ≠ 0) : Leaves i r (r.raise f) :=
  .fault _ (statusByte_raise_legal f) (by rwa [statusFault_statusByte])

theorem completedB {bytes : List Byte} (hfit : bytes.length ≤ 8) : Leaves .pack r (r.completeB bytes) :=
  .intoB rfl _ bytes (statusByte_complete_legal false) (statusFault_statusByte false .noFault) hfit

theorem completedS {text : List Byte} {malf : Bool} (hi : i = .unpack ∨ i = .decode) (hfit : text.length ≤ 16) :
    Leaves i r (r.completeS text malf) :=
  .intoS hi _ text (statusByte_complete_legal malf) (statusFault_statusByte malf .noFault) hfit

end Leaves

/-- Operation `i` goes on from `s` to what it can leave, with the counter of free values as it was if the cells it reads
are written, and one access further if not (10_state.md R29, R30). -/
def LeavesFrom (i : Instr) (s : State) : Prop :=
  ∃ n t, exec i s = .next t ∧ (s.OperandWritten i → n = s.reads) ∧ (¬s.OperandWritten i → n = s.reads + 1) ∧
    Leaves i { s with reads := n } t

section LeavesFrom

variable {i : Instr} {s t : State}

theorem leavesFrom_written (hw : s.OperandWritten i) (h : exec i s = .next t) (hl : Leaves i s t) : LeavesFrom i s :=
  ⟨s.reads, t, h, fun _ => rfl, fun hn => absurd hw hn, hl⟩

theorem leavesFrom_unwritten (hn : ¬s.OperandWritten i) (h : exec i s = .next t) (hl : Leaves i s.accessed t) :
    LeavesFrom i s :=
  ⟨s.reads + 1, t, h, fun hw => absurd hw hn, fun _ => rfl, hl⟩

theorem leavesFrom_openS (hi : i = .unpack ∨ i = .decode) (hn : ¬s.OperandWritten i) (h : exec i s = .next s.openS) :
    LeavesFrom i s := by
  refine leavesFrom_unwritten hn h ?_
  rcases openS_cases s with ⟨v, hlegal, hfault, heq⟩ | ⟨v, text, hlegal, hdone, hfit, heq⟩ <;> rw [heq]
  · exact .fault v hlegal hfault
  · exact .intoS hi v text hlegal hdone hfit

theorem leavesFrom_pack (s : State) : LeavesFrom .pack s := by
  rcases exec_pack_cases s with ⟨hgt, h⟩ | ⟨_, hscan, _, h⟩ | ⟨v, hle, hw, hv, h⟩ | ⟨hle, hopen, h⟩
  · exact leavesFrom_written (fun hle => absurd hgt (by omega)) h (.raised (by decide))
  · exact leavesFrom_written (fun _ => hscan) h (.raised (by decide))
  · have hlen := hexvals_length hv
    rw [stringOperand_length] at hlen
    exact leavesFrom_written (fun _ => scanWritten_of_written hw) h
      (.completedB (by rw [packNibbles_length]; omega))
  · refine leavesFrom_unwritten (fun hw => hopen (hw hle)) h ?_
    rcases openB_cases s with ⟨v, hlegal, hfault, heq⟩ | ⟨v, bytes, hlegal, hdone, hfit, heq⟩ <;> rw [heq]
    · exact .fault v hlegal hfault
    · exact .intoB rfl v bytes hlegal hdone hfit

theorem leavesFrom_unpack (s : State) : LeavesFrom .unpack s := by
  rcases exec_unpack_cases s with ⟨hgt, h⟩ | ⟨hle, hw, h⟩ | ⟨hle, hopen, h⟩
  · exact leavesFrom_written (fun hle => absurd hgt (by omega)) h (.raised (by decide))
  · exact leavesFrom_written (fun _ => hw) h
      (.completedS (.inl rfl) (by rw [unpack_length, bytesOperand_length]; omega))
  · exact leavesFrom_openS (.inl rfl) (fun hw => hopen (hw hle)) h

theorem leavesFrom_encode (s : State) : LeavesFrom .encode s := by
  rcases exec_encode_cases s with ⟨hbad, h⟩ | ⟨_, hscan, _, h⟩ | ⟨hok, hw, hdec, h⟩ | ⟨hok, hopen, h⟩
  · refine leavesFrom_written (fun hmin hmax => ?_) h (.raised (by decide))
    rw [(lenOk_eq_true _).mpr ⟨hmin, hmax⟩] at hbad
    cases hbad
  · exact leavesFrom_written (fun _ _ => hscan) h (.raised (by decide))
  · obtain ⟨_, hmax⟩ := (lenOk_eq_true _).mp hok
    exact leavesFrom_written (fun _ _ => scanWritten_of_written hw) h
      (.assembled rfl _ (soundStart_pinHeader hok hw hdec) (by rw [pinHeader_length, stringOperand_length]; omega))
  · obtain ⟨hmin, hmax⟩ := (lenOk_eq_true _).mp hok
    refine leavesFrom_unwritten (fun hw => hopen (hw hmin hmax)) h ?_
    rcases openEncode_cases s with ⟨v, hlegal, hfault, heq⟩ | ⟨N, hle, hlow, heq⟩ <;> rw [heq]
    · exact .fault v hlegal hfault
    · exact .assembled rfl N (soundStart_of_unwritten hok (hlow (by omega)) hopen) hle

theorem leavesFrom_decode (s : State) : LeavesFrom .decode s := by
  rcases exec_decode_cases s with ⟨hne, h⟩ | ⟨_, hw, _, h⟩ | ⟨_, hw, hle, h⟩ | ⟨heq, hopen, h⟩
  · exact leavesFrom_written (fun heq => absurd (congrArg BitVec.toNat heq) hne) h (.raised (by decide))
  · exact leavesFrom_written (fun _ => hw) h (.raised (by decide))
  · have hfit : 2 * s.pinBytes.length ≥ s.blockLength := by rw [pinBytes_length, ceil2_eq]; omega
    exact leavesFrom_written (fun _ => hw) h (.completedS (.inr rfl) (by rw [decodePin_length hfit]; omega))
  · exact leavesFrom_openS (.inr rfl) (fun hw => hopen (hw (BitVec.eq_of_toNat_eq heq))) h

theorem leavesFrom_chklen (s : State) : LeavesFrom .chklen s := by
  refine leavesFrom_written trivial (exec_chklen s) ?_
  split
  · exact .valid rfl
  · exact .raised (by decide)

/-- Every operation, on every state. -/
theorem leavesFrom (i : Instr) (s : State) : LeavesFrom i s := by
  cases i with
  | pack => exact leavesFrom_pack s
  | unpack => exact leavesFrom_unpack s
  | encode => exact leavesFrom_encode s
  | decode => exact leavesFrom_decode s
  | chklen => exact leavesFrom_chklen s

/-- What an operation left is what it can leave. -/
theorem leaves_of_exec (h : exec i s = .next t) :
    ∃ n, (s.OperandWritten i → n = s.reads) ∧ Leaves i { s with reads := n } t := by
  obtain ⟨n, u, hu, hwritten, _, hl⟩ := leavesFrom i s
  cases h.symm.trans hu
  exact ⟨n, hwritten, hl⟩

end LeavesFrom

namespace Leaves

variable {i : Instr} {r t : State}

theorem reads_eq (h : Leaves i r t) : t.reads = r.reads := by
  cases h with
  | assembled hi N hsound hle => exact assemble_reads r N
  | _ => rfl

theorem events_eq (h : Leaves i r t) : t.events = r.events := by
  cases h with
  | assembled hi N hsound hle => exact assemble_events r N
  | _ => rfl

/-! ### The source operand (R38) -/

theorem string_eq (h : Leaves i r t) (hi : i = .pack ∨ i = .encode ∨ i = .chklen) : t.S = r.S ∧ t.SLEN = r.SLEN := by
  cases h with
  | intoS hd => rcases hd with rfl | rfl <;> simp at hi
  | assembled hi N hsound hle => exact ⟨assemble_S r N, assemble_SLEN r N⟩
  | _ => exact ⟨rfl, rfl⟩

theorem bytes_eq (h : Leaves i r t) (hi : i = .unpack ∨ i = .decode) : t.B = r.B ∧ t.BLEN = r.BLEN := by
  cases h with
  | intoB hd => subst hd; simp at hi
  | assembled hd => subst hd; simp at hi
  | _ => exact ⟨rfl, rfl⟩

/-! ### The frames (R34) -/

theorem pack_frame (h : Leaves .pack r t) : t = { r with B := t.B, BLEN := t.BLEN, STATUS := t.STATUS } := by
  cases h with
  | fault | intoB => rfl
  | intoS hi => simp at hi
  | valid hi | assembled hi => cases hi

theorem unpack_or_decode_frame (h : Leaves i r t) (hi : i = .unpack ∨ i = .decode) :
    t = { r with S := t.S, SLEN := t.SLEN, STATUS := t.STATUS } := by
  cases h with
  | fault | intoS => rfl
  | valid hd | intoB hd | assembled hd => subst hd; simp at hi

theorem encode_frame (h : Leaves .encode r t) :
    t = { r with
      B := t.B, BLEN := t.BLEN, STATUS := t.STATUS, waiting := t.waiting, source := t.source, draws := t.draws } := by
  cases h with
  | fault => rfl
  | intoS hi => simp at hi
  | valid hi | intoB hi => cases hi
  | assembled hi N => exact assemble_frame r N

theorem encode_unfinished (h : Leaves .encode r t) (hidle : r.waiting = none) (hwait : t.waiting ≠ none) :
    t.B = r.B ∧ t.BLEN = r.BLEN ∧ t.STATUS = r.STATUS := by
  cases h with
  | fault => exact absurd hidle hwait
  | intoS hi => simp at hi
  | valid hi | intoB hi => cases hi
  | assembled hi N => exact assemble_unfinished hwait

theorem chklen_frame (h : Leaves .chklen r t) : t = { r with STATUS := t.STATUS } := by
  cases h with
  | fault | valid => rfl
  | intoS hi => simp at hi
  | intoB hi | assembled hi => cases hi

end Leaves

/-- Settles O28, from the operands that `Leaves` and the assembler leave alone. -/
theorem sourceOperandUnchanged : Obligations.SourceOperandUnchanged := by
  refine ⟨fun i s t h => ?_, fun s t N hN hc h => ?_⟩
  · obtain ⟨n, _, hl⟩ := leaves_of_exec h
    exact ⟨hl.string_eq, hl.bytes_eq⟩
  · cases (step_goesOn hN hc).symm.trans h
    exact ⟨assemble_S s N, assemble_SLEN s N⟩

/-- Settles O29, operation by operation from what each can leave. -/
theorem instructionFrames : Obligations.InstructionFrames := by
  refine ⟨fun s t => ⟨fun h => ?_, fun h => ?_, fun h => ?_, fun h => ?_, fun h => ?_, fun i h hw => ?_⟩,
    fun s t N hN hc h => ?_⟩
  · obtain ⟨n, _, hl⟩ := leaves_of_exec h
    rw [hl.reads_eq]
    exact hl.pack_frame
  · obtain ⟨n, _, hl⟩ := leaves_of_exec h
    rw [hl.reads_eq]
    exact hl.unpack_or_decode_frame (.inl rfl)
  · obtain ⟨n, _, hl⟩ := leaves_of_exec h
    rw [hl.reads_eq]
    exact ⟨hl.encode_frame, hl.encode_unfinished⟩
  · obtain ⟨n, _, hl⟩ := leaves_of_exec h
    rw [hl.reads_eq]
    exact hl.unpack_or_decode_frame (.inr rfl)
  · obtain ⟨n, hwritten, hl⟩ := leaves_of_exec h
    cases hwritten trivial
    exact hl.chklen_frame
  · obtain ⟨n, hwritten, hl⟩ := leaves_of_exec h
    rw [hl.reads_eq, hwritten hw]
  · cases (step_goesOn hN hc).symm.trans h
    exact ⟨assemble_frame s N, assemble_unfinished⟩

/-! ### The destination (R39, R28) -/

/-- Cell `k` made of a list of values: it holds one below the end of the list, and none from there on. -/
theorem cellOf_getElem? (vals : List Byte) (k : Nat) :
    (k < vals.length → ∃ c, some (cellOf vals[k]?) = some (Cell.holding c)) ∧
    (vals.length ≤ k → HoldsNoValue (some (cellOf vals[k]?))) := by
  refine ⟨fun hlt => ⟨vals[k], ?_⟩, fun hge => ?_⟩
  · rw [List.getElem?_eq_getElem hlt, cellOf_some]
  · rw [List.getElem?_eq_none hge]
    rfl

/-- The cells of a filled byte buffer, by the length that `BLEN` then has. -/
theorem fillB_cells {bytes : List Byte} (hfit : bytes.length ≤ 8) {k : Nat} (hk : k < 8) :
    (k < (BitVec.ofNat 4 bytes.length).toNat → ∃ b, (fillB bytes)[k]? = some (Cell.holding b)) ∧
    ((BitVec.ofNat 4 bytes.length).toNat ≤ k → HoldsNoValue (fillB bytes)[k]?) := by
  rw [BitVec.toNat_ofNat, Nat.mod_eq_of_lt (by omega), fillB_getElem? bytes k hk]
  exact cellOf_getElem? bytes k

/-- The cells of a filled string buffer, by the length that `SLEN` then has. -/
theorem fillS_cells {text : List Byte} (hfit : text.length ≤ 16) {k : Nat} (hk : k < 16) :
    (k < (BitVec.ofNat 5 text.length).toNat → ∃ c, (fillS text)[k]? = some (Cell.holding c)) ∧
    ((BitVec.ofNat 5 text.length).toNat ≤ k → HoldsNoValue (fillS text)[k]?) := by
  rw [BitVec.toNat_ofNat, Nat.mod_eq_of_lt (by omega), fillS_getElem? text k hk]
  exact cellOf_getElem? text k

/-- An assembly that is over has completed into eight bytes. -/
theorem assemble_finished {s : State} {N : List Nibble} (hle : N.length ≤ 16) (h : (s.assemble N).waiting = none) :
    ∃ bytes, bytes.length = 8 ∧ (s.assemble N).B = fillB bytes ∧ (s.assemble N).BLEN = BitVec.ofNat 4 bytes.length ∧
      (s.assemble N).STATUS = 0x00 := by
  rcases assemble_ends s hle with ⟨got, n, _, heq⟩ | ⟨bytes, n, hlen, heq⟩ <;> rw [heq] at h ⊢
  · cases h
  · exact ⟨bytes, hlen, rfl, rfl, rfl⟩

namespace Leaves

variable {i : Instr} {r t : State}

theorem cells_of_B (h : Leaves i r t) (hi : i = .pack ∨ i = .encode) (hover : t.waiting = none)
    (hdone : statusFault t.STATUS = 0) {k : Nat} (hk : k < 8) :
    (k < t.BLEN.toNat → ∃ b, t.B[k]? = some (Cell.holding b)) ∧ (t.BLEN.toNat ≤ k → HoldsNoValue t.B[k]?) := by
  cases h with
  | fault v hlegal hfault => exact absurd hdone hfault
  | valid hd => subst hd; simp at hi
  | intoB _ v bytes _ _ hfit => exact fillB_cells hfit hk
  | intoS hd => rcases hd with rfl | rfl <;> simp at hi
  | assembled _ N _ hle =>
    obtain ⟨bytes, hlen, hB, hBLEN, _⟩ := assemble_finished hle hover
    rw [hB, hBLEN]
    exact fillB_cells (by omega) hk

theorem cells_of_S (h : Leaves i r t) (hi : i = .unpack ∨ i = .decode) (hdone : statusFault t.STATUS = 0) {k : Nat}
    (hk : k < 16) :
    (k < t.SLEN.toNat → ∃ c, t.S[k]? = some (Cell.holding c)) ∧ (t.SLEN.toNat ≤ k → HoldsNoValue t.S[k]?) := by
  cases h with
  | fault v hlegal hfault => exact absurd hdone hfault
  | valid hd | intoB hd | assembled hd => subst hd; simp at hi
  | intoS _ v text _ _ hfit => exact fillS_cells hfit hk

end Leaves

/-- Settles O30: a completion fills its destination, and an ENCODE that waited completes into eight bytes. -/
theorem destinationAboveLengthHoldsNoValue : Obligations.DestinationAboveLengthHoldsNoValue := by
  refine ⟨fun i s t _ h hover hdone => ?_, fun s t N hinv hN hc h hover => ?_⟩
  · obtain ⟨n, _, hl⟩ := leaves_of_exec h
    exact ⟨fun hi k => hl.cells_of_B hi hover hdone, fun hi k => hl.cells_of_S hi hdone⟩
  · cases (step_goesOn hN hc).symm.trans h
    obtain ⟨_, hlt⟩ := soundStart_of_waiting hinv.2 hN
    obtain ⟨bytes, hlen, hB, hBLEN, _⟩ := assemble_finished (by omega) hover
    refine ⟨by rw [hBLEN, hlen]; rfl, fun k hk => ?_⟩
    rw [hB]
    refine (fillB_cells (by omega) hk).1 ?_
    rw [hlen]
    exact hk

/-! ### The open outcome (R29) -/

/-- A length register holds no more than the length it was given. -/
theorem toNat_ofNat_le_of_le {w n m : Nat} (h : n ≤ m) : (BitVec.ofNat w n).toNat ≤ m :=
  (BitVec.toNat_ofNat ..).trans_le ((Nat.mod_le ..).trans h)

/-- `STATUS` after a fault, and after an operation that completed (30_encoding.md R86). -/
theorem faultStatus_mem {v : Byte} (hlegal : v ∈ legalStatus) (hfault : statusFault v ≠ 0) :
    v ∈ [0x01, 0x02, 0x03, 0x04, 0x15] :=
  (legalStatus_cases hlegal).elim (fun h => absurd h.1 hfault) And.right

theorem doneStatus_mem {v : Byte} (hlegal : v ∈ legalStatus) (hdone : statusFault v = 0) : v ∈ [0x00, 0x10] :=
  (legalStatus_cases hlegal).elim And.right fun h => absurd hdone h.1

/-- Settles O33: what an operation can leave, with one access counted. -/
theorem unwrittenOperandHasOpenOutcome : Obligations.UnwrittenOperandHasOpenOutcome := by
  refine ⟨fun i s hn => ?_, fun s => trivial⟩
  obtain ⟨n, t, h, _, hunwritten, hl⟩ := leavesFrom i s
  refine ⟨t, h, hl.reads_eq.trans (hunwritten hn), ?_⟩
  cases hl with
  | fault v hlegal hfault => exact .inl ⟨rfl, faultStatus_mem hlegal hfault⟩
  | valid hi => subst hi; exact absurd trivial hn
  | intoB hi v bytes hlegal hdone hfit =>
    exact .inr (.inl ⟨hi, rfl, toNat_ofNat_le_of_le hfit, doneStatus_mem hlegal hdone⟩)
  | intoS hi v text hlegal hdone hfit =>
    exact .inr (.inr (.inl ⟨hi, rfl, toNat_ofNat_le_of_le hfit, doneStatus_mem hlegal hdone⟩))
  | assembled hi N _ hle =>
    cases hwait : (State.assemble N { s with reads := n }).waiting with
    | none =>
      obtain ⟨bytes, hlen, _, hBLEN, hSTATUS⟩ := assemble_finished hle hwait
      exact .inr (.inr (.inr (.inl ⟨hi, rfl, by rw [hBLEN, hlen]; rfl, hSTATUS⟩)))
    | some M =>
      exact .inr (.inr (.inr (.inr ⟨hi, ⟨M, rfl⟩, assemble_unfinished (by simp [hwait])⟩)))

end Sys2Proof.Machine
end

section
/-! PROOFS. The family of 10_state.md, every step: it has a next state, keeps the invariant and the legal lengths, and
leaves `STATUS` to commands and reset (R22, R24, R25); and an ENCODE that waits ends as one that does not (R31). -/

namespace Sys2Proof.Machine

/-! ### What a step can do -/

/-- What a step can make of the state `s`. A reset and a source reach an idle core as the next event and a waiting one
past what is held off (70_reset_and_hazards.md R211, R214). -/
inductive Does (s : State) : State → Prop
  | stays : Does s s
  | access (a : HostAccess) (rest : List Event) (hidle : s.waiting = none) (he : s.events = .access a :: rest) :
      Does s ((s.takeEvent rest).hostAccess a)
  | command (cmd : Byte) (rest : List Event) (hidle : s.waiting = none) (he : s.events = .command cmd :: rest)
      (i : Instr) (n : Nat) (t : State) (hl : Leaves i { s.takeEvent rest with reads := n } t) : Does s t
  | illegal (cmd : Byte) (rest : List Event) (hidle : s.waiting = none) (he : s.events = .command cmd :: rest) :
      Does s (s.takeEvent rest).illegalCommand
  | reset (held rest : List Event) (hheld : s.waiting = none → held = []) (he : s.events = held ++ .reset :: rest) :
      Does s (s.takeEvent (held ++ rest)).resetCore
  | connect (src : RandomSource) (held rest : List Event) (he : s.events = held ++ .connect src :: rest) :
      Does s ((s.takeEvent (held ++ rest)).connectSource src)
  | goesOn (N : List Nibble) (hN : s.waiting = some N) : Does s (s.assemble N)

theorem does_of_waiting {s : State} {N : List Nibble} (hN : s.waiting = some N) : Does s (s.stepWaiting N) := by
  have hbusy : s.waiting ≠ none := by simp [hN]
  rcases stepWaiting_cases s N with ⟨_, h⟩ | ⟨_, held, rest, _, he, h⟩ | ⟨_, held, src, rest, _, he, h⟩ | ⟨_, _, h⟩ <;>
    rw [h]
  · exact .goesOn N hN
  · exact .reset held rest (fun hidle => absurd hidle hbusy) he
  · exact .connect src held rest he
  · exact .stays

theorem serve_does {s : State} {e : Event} {rest : List Event} (hidle : s.waiting = none) (he : s.events = e :: rest) :
    ∃ t, serve e (s.takeEvent rest) = .next t ∧ Does s t := by
  cases e with
  | access a => exact ⟨_, rfl, .access a rest hidle he⟩
  | command cmd =>
    rcases runCommand_cases cmd (s.takeEvent rest) with ⟨i, _, hrun⟩ | ⟨_, hrun⟩
    · obtain ⟨n, t, h, _, _, hl⟩ := leavesFrom i (s.takeEvent rest)
      exact ⟨t, hrun.trans h, .command cmd rest hidle he i n t hl⟩
    · exact ⟨_, hrun, .illegal cmd rest hidle he⟩
  | reset => exact ⟨_, rfl, .reset [] rest (fun _ => rfl) he⟩
  | connect src => exact ⟨_, rfl, .connect src [] rest he⟩

/-- Every state has a next one, and it is one of those of `Does`. -/
theorem step_does (s : State) : ∃ t, step s = .next t ∧ Does s t := by
  cases hw : s.waiting with
  | some N => exact ⟨_, step_waiting hw, does_of_waiting hw⟩
  | none =>
    cases he : s.events with
    | nil => exact ⟨s, step_quiet hw he, .stays⟩
    | cons e rest => rw [step_event hw he]; exact serve_does hw he

theorem does_of_step {s t : State} (h : step s = .next t) : Does s t := by
  obtain ⟨u, hu, hdoes⟩ := step_does s
  cases hu.symm.trans h
  exact hdoes

/-- Settles O45: whatever there is to do has a next state. -/
theorem everyStepHasNextState : Obligations.EveryStepHasNextState := fun s =>
  let ⟨t, h, _⟩ := step_does s
  ⟨t, h⟩

/-- Settles O38: neither a host access nor a source writes `STATUS`. -/
theorem onlyCommandsAndResetChangeStatus : Obligations.OnlyCommandsAndResetChangeStatus := by
  intro s t h hne
  cases does_of_step h with
  | stays | connect => exact absurd rfl hne
  | access a => exact absurd (hostAccess_STATUS a _) hne
  | command cmd rest _ he | illegal cmd rest _ he => exact .inr (.inl ⟨cmd, rest, he⟩)
  | reset held rest hheld he =>
    cases hw : s.waiting with
    | some N => exact .inl ⟨N, rfl⟩
    | none => exact .inr (.inr ⟨rest, by rw [he, hheld hw, List.nil_append]⟩)
  | goesOn N hN => exact .inl ⟨N, hN⟩

/-! ### What every step keeps -/

/-- An operation that starts on an idle core leaves the invariant. -/
theorem Leaves.inv {i : Instr} {r t : State} (h : Leaves i r t) (hidle : r.waiting = none)
    (hstatus : r.STATUS ∈ legalStatus) : t.Inv := by
  cases h with
  | fault _ hlegal | intoB _ _ _ hlegal | intoS _ _ _ hlegal => exact ⟨hlegal, waitingOk_of_idle hidle⟩
  | valid => exact ⟨statusByte_complete_legal false, waitingOk_of_idle hidle⟩
  | assembled _ N hsound hle => exact assemble_inv hstatus hsound hle

/-- Every step keeps the invariant. -/
theorem inv_of_step {s t : State} (hinv : s.Inv) (h : step s = .next t) : t.Inv := by
  have hwait : s.WaitingOk := hinv.2
  cases does_of_step h with
  | stays | connect => exact hinv
  | access a rest hidle =>
    exact ⟨by rw [hostAccess_STATUS]; exact hinv.1, waitingOk_of_idle (by rw [hostAccess_waiting]; exact hidle)⟩
  | command cmd rest hidle _ i n _ hl => exact hl.inv hidle hinv.1
  | illegal cmd rest hidle => exact ⟨statusByte_raise_legal .illegalOp, waitingOk_of_idle hidle⟩
  | reset => exact ⟨invAtReset.1, waitingOk_of_idle rfl⟩
  | goesOn N hN =>
    obtain ⟨hsound, hlt⟩ := soundStart_of_waiting hwait hN
    exact assemble_inv hinv.1 hsound (by omega)

/-- The two lengths are legal (R22, R24). -/
def State.LengthsFit (s : State) : Prop := s.SLEN.toNat ≤ 16 ∧ s.BLEN.toNat ≤ 8

/-- No host write of a length above the capacity is among the events. -/
def LegalWrites (events : List Event) : Prop :=
  (∀ n, .access (.writeSLEN n) ∈ events → n.toNat ≤ 16) ∧ ∀ m, .access (.writeBLEN m) ∈ events → m.toNat ≤ 8

theorem LegalWrites.subset {events later : List Event} (h : LegalWrites events) (hsub : later ⊆ events) :
    LegalWrites later :=
  ⟨fun n hn => h.1 n (hsub hn), fun m hm => h.2 m (hsub hm)⟩

/-- No step adds an event. -/
theorem events_subset_of_step {s t : State} (h : step s = .next t) : t.events ⊆ s.events := by
  have htaken : ∀ (held rest : List Event) (e : Event), held ++ rest ⊆ held ++ e :: rest := fun held rest e =>
    ((List.sublist_cons_self e rest).append_left held).subset
  cases does_of_step h with
  | stays => exact List.Subset.refl _
  | access a rest _ he => rw [hostAccess_events, he]; exact List.subset_cons_self _ _
  | command cmd rest _ he i n _ hl => rw [hl.events_eq, he]; exact List.subset_cons_self _ _
  | illegal cmd rest _ he => rw [he]; exact List.subset_cons_self _ _
  | reset held rest _ he => rw [he]; exact htaken held rest _
  | connect src held rest he => rw [he]; exact htaken held rest _
  | goesOn N => rw [assemble_events]; exact List.Subset.refl _

theorem assemble_lengthsFit {s : State} {N : List Nibble} (hfit : s.LengthsFit) (hle : N.length ≤ 16) :
    (s.assemble N).LengthsFit := by
  rcases assemble_ends s hle with ⟨got, n, _, h⟩ | ⟨bytes, n, hlen, h⟩ <;> rw [h]
  · exact hfit
  · exact ⟨hfit.1, toNat_ofNat_le_of_le (Nat.le_of_eq hlen)⟩

theorem Leaves.lengthsFit {i : Instr} {r t : State} (h : Leaves i r t) (hfit : r.LengthsFit) : t.LengthsFit := by
  cases h with
  | fault | valid => exact hfit
  | intoB _ _ _ _ _ hlen => exact ⟨hfit.1, toNat_ofNat_le_of_le hlen⟩
  | intoS _ _ _ _ _ hlen => exact ⟨toNat_ofNat_le_of_le hlen, hfit.2⟩
  | assembled _ N _ hle => exact assemble_lengthsFit hfit hle

theorem hostAccess_lengthsFit {s : State} {a : HostAccess} {rest : List Event} (hfit : s.LengthsFit)
    (hlegal : LegalWrites (.access a :: rest)) : (s.hostAccess a).LengthsFit := by
  cases a with
  | writeSLEN n => exact ⟨hlegal.1 n List.mem_cons_self, hfit.2⟩
  | writeBLEN m => exact ⟨hfit.1, hlegal.2 m List.mem_cons_self⟩
  | _ => exact hfit

theorem lengthsFit_of_step {s t : State} (hwait : s.WaitingOk) (hfit : s.LengthsFit) (hlegal : LegalWrites s.events)
    (h : step s = .next t) : t.LengthsFit := by
  cases does_of_step h with
  | stays | connect | illegal => exact hfit
  | access a rest _ he => exact hostAccess_lengthsFit (s := s.takeEvent rest) hfit (he ▸ hlegal)
  | command cmd rest _ _ i n _ hl => exact hl.lengthsFit hfit
  | reset => exact ⟨Nat.zero_le 16, Nat.zero_le 8⟩
  | goesOn N hN => exact assemble_lengthsFit hfit (Nat.le_of_lt (soundStart_of_waiting hwait hN).2)

/-- Settles O37: the invariant bounds what a waiting ENCODE packs, so the lengths stay legal, and the events to come are
among those before. -/
theorem stepKeepsLegalLengths : Obligations.StepKeepsLegalLengths := by
  intro s t hinv hSLEN hBLEN hwriteS hwriteB h
  have hlegal : LegalWrites s.events := ⟨hwriteS, hwriteB⟩
  obtain ⟨hSLEN', hBLEN'⟩ := lengthsFit_of_step hinv.2 ⟨hSLEN, hBLEN⟩ hlegal h
  exact ⟨inv_of_step hinv h, hSLEN', hBLEN', hlegal.subset (events_subset_of_step h)⟩

/-! ### An ENCODE answered in two lots (R31, R116) -/

theorem drawn_stub {s : State} {left : List Nibble} (h : s.source = .stub left) (need : Nat) :
    s.drawn need = left.take need := by
  rw [State.drawn, h]
  rfl

/-- An assembly that is answered throughout is over. -/
theorem assemble_over {s : State} {N : List Nibble} (hle : N.length ≤ 16)
    (h : s.source.canAnswer (16 - N.length) = true) : (s.assemble N).waiting = none := by
  rw [assemble_complete hle h, State.endWait_waiting]

/-- The assembly that goes on with the later answers ends as the one that had all of them from the start. -/
theorem assemble_two_lots (s : State) {N first later : List Nibble} (hfirst : N.length + first.length ≤ 16)
    (hlater : 16 ≤ N.length + first.length + later.length) :
    State.assemble (N ++ first) { s with
      source := .stub later, draws := s.draws + first.length, waiting := some (N ++ first) } =
    State.assemble N { s with source := .stub (first ++ later) } := by
  obtain ⟨m, hm⟩ : ∃ m, 16 = N.length + first.length + m := ⟨16 - (N.length + first.length), by omega⟩
  have hall : 16 - N.length = first.length + m := by omega
  have hrest : 16 - (N ++ first).length = m := by rw [List.length_append]; omega
  rw [assemble_complete (by rw [List.length_append]; exact hfirst)
      (by rw [hrest]; exact decide_eq_true (by omega)),
    assemble_complete (by omega) (by rw [hall]; exact decide_eq_true (by rw [List.length_append]; omega)),
    hall, hrest, drawn_stub rfl, drawn_stub rfl, List.take_length_add_append, ← List.append_assoc]
  simp [State.afterDraws, State.completeB, State.endWait, RandomSource.after, List.drop_append, Nat.add_assoc]

/-- ENCODE of a PIN with a stub that runs out keeps the stub's answers behind control, length and digits. -/
theorem exec_encode_stubRunsOut {s : State} {first : List Nibble} (hok : lenOk s.SLEN.toNat = true)
    (hw : s.StringWritten s.SLEN.toNat) (hdec : s.AllDec) (hsrc : s.source = .stub first)
    (hfirst : first.length < 14 - s.SLEN.toNat) :
    exec .encode s = .next ((s.afterDraws first.length).wait (pinHeader s.stringOperand ++ first)) := by
  have hsilent : s.source.canAnswer (14 - s.SLEN.toNat) = false := by
    rw [hsrc]; exact decide_eq_false (by omega)
  have hdrawn : s.drawn (14 - s.SLEN.toNat) = first := by
    rw [drawn_stub hsrc, List.take_of_length_le (Nat.le_of_lt hfirst)]
  rw [exec_encode_unanswered hok hw hdec hsilent, hdrawn]

/-- Settles O22: the wait keeps the first answers, the source is connected past what is held off, and the assembly goes
on with the others. -/
theorem waitIsNotObservable : Obligations.WaitIsNotObservable := by
  rintro s _ t first later held rest hmin hmax hw hdec _ hsrc hheld he hfirst hlater rfl h
  have hok : lenOk s.SLEN.toNat = true := (lenOk_eq_true _).mpr ⟨hmin, hmax⟩
  have hlen : (pinHeader s.stringOperand).length = 2 + s.SLEN.toNat := by rw [pinHeader_length, stringOperand_length]
  cases (exec_encode_stubRunsOut hok hw hdec hsrc hfirst).symm.trans h
  have hexhausted : (s.source.after first.length).canAnswer 1 = false := by
    simp [hsrc, RandomSource.after, RandomSource.canAnswer]
  have hfits : (pinHeader s.stringOperand).length ≤ 16 := by omega
  have hconnected : (RandomSource.stub later).canAnswer 1 = true := decide_eq_true (by omega)
  have hall : (RandomSource.stub (first ++ later)).canAnswer (16 - (pinHeader s.stringOperand).length) = true :=
    decide_eq_true (by rw [List.length_append]; omega)
  refine ⟨_, _, (step_waiting rfl).trans (congrArg _ (stepWaiting_connect hexhausted (all_heldOff.mpr hheld) he)),
    (step_goesOn rfl hconnected).trans (congrArg _ ?_), exec_encode_eq hok hw hdec, ?_⟩
  · exact assemble_two_lots { s with events := held ++ rest } (by omega) (by omega)
  · exact assemble_over hfits hall

end Sys2Proof.Machine
end

section
/-! PROOFS. The family of 20_memory.md: an operation run again on what it left (R59). -/

namespace Sys2Proof.Machine

/-- Operation `i` goes on from `s` to a state in which it changes nothing any more. -/
def EndsInFixpoint (i : Instr) (s : State) : Prop := ∃ t, exec i s = .next t ∧ exec i t = .next t

section EndsInFixpoint

/-! In each case the state that is left has the operand of the state before it (10_state.md R38), so it falls under the
same case, and the same update made twice is the update made once. -/

variable {i : Instr} {s : State}

theorem endsInFixpoint_pack (hw : s.OperandWritten .pack) : EndsInFixpoint .pack s := by
  rcases exec_pack_cases s with ⟨hgt, h⟩ | ⟨hle, hscan, hnone, h⟩ | ⟨v, hle, hstr, hv, h⟩ | ⟨hle, hopen, _⟩
  · exact ⟨_, h, exec_pack_badCount (s := s.raise .badCount) hgt⟩
  · exact ⟨_, h, exec_pack_badDigit (s := s.raise .badDigit) hle hscan ((pack_eq_none s).mp hnone)⟩
  · exact ⟨_, h, exec_pack_eq (s := s.completeB (packNibbles v)) hle hstr hv⟩
  · exact absurd (hw hle) hopen

theorem endsInFixpoint_unpack (hw : s.OperandWritten .unpack) : EndsInFixpoint .unpack s := by
  rcases exec_unpack_cases s with ⟨hgt, h⟩ | ⟨hle, hbytes, h⟩ | ⟨hle, hopen, _⟩
  · exact ⟨_, h, exec_unpack_badCount (s := s.raise .badCount) hgt⟩
  · exact ⟨_, h, exec_unpack_eq (s := s.completeS (unpack s.bytesOperand) false) hle hbytes⟩
  · exact absurd (hw hle) hopen

theorem endsInFixpoint_decode (hw : s.OperandWritten .decode) : EndsInFixpoint .decode s := by
  rcases exec_decode_cases s with ⟨hne, h⟩ | ⟨heq, hblock, hgt, h⟩ | ⟨heq, hblock, hle, h⟩ | ⟨heq, hopen, _⟩
  · exact ⟨_, h, exec_decode_badCount (s := s.raise .badCount) hne⟩
  · exact ⟨_, h, exec_decode_overrun (s := s.raise .decodeOverrun) heq hblock hgt⟩
  · exact ⟨_, h, exec_decode_eq (s := s.completeS (decodePin s.blockLength s.pinBytes) (!lenOk s.blockLength))
      heq hblock hle⟩
  · exact absurd (hw (BitVec.eq_of_toNat_eq heq)) hopen

theorem endsInFixpoint_chklen (s : State) : EndsInFixpoint .chklen s := by
  refine ⟨_, exec_chklen s, ?_⟩
  split <;> rename_i hok
  · rw [exec_chklen, State.complete_SLEN, if_pos hok]
    rfl
  · rw [exec_chklen, State.raise_SLEN, if_neg hok]
    rfl

/-- ENCODE, which takes new draws, is the one operation that may leave something else when it is run again. -/
theorem endsInFixpoint_of_written (hi : i ≠ .encode) (hw : s.OperandWritten i) : EndsInFixpoint i s := by
  cases i with
  | pack => exact endsInFixpoint_pack hw
  | unpack => exact endsInFixpoint_unpack hw
  | encode => exact absurd rfl hi
  | decode => exact endsInFixpoint_decode hw
  | chklen => exact endsInFixpoint_chklen s

end EndsInFixpoint

/-- Settles O32: the first run ends in a state that the second one leaves unchanged, `waiting` and the rest
of the machine included. -/
theorem commandsAreIdempotent : Obligations.CommandsAreIdempotent := by
  intro i s t hi hw h
  obtain ⟨u, hu, hagain⟩ := endsInFixpoint_of_written hi hw
  cases h.symm.trans hu
  exact ⟨_, hagain, rfl, rfl, rfl, rfl, rfl⟩

end Sys2Proof.Machine
end

section
/-! PROOFS. The family of 30_encoding.md: the command byte (R70 to R73), the characters (R76 to R78), and the invariant
with the values of `STATUS` (R86). -/

namespace Sys2Proof.Machine

/-! ### The invariant (R86) -/

/-- Settles O35: what a step can do is `Does`, and each of it keeps the invariant (`inv_of_step`). -/
theorem stepKeepsInv : Obligations.StepKeepsInv := fun _ _ => inv_of_step

/-! ### The command byte (R70 to R73) -/

theorem opInstr_eq_some {op : BitVec 3} {i : Instr} : opInstr op = some i ↔ op = instrOp i := by
  cases i <;> revert op <;> decide

/-- A command byte is its two fields, `RSV` above `OP` (R70). -/
theorem rsv_append_op (cmd : Byte) : cmdRsv cmd ++ cmdOp cmd = cmd :=
  BitVec.extractLsb'_append_extractLsb'

/-- What is known of every operation's encoding. -/
theorem commandCode (i : Instr) : Laws.CommandCode.Statement i := by
  cases i with
  | pack => exact Laws.CommandCode.pack
  | unpack => exact Laws.CommandCode.unpack
  | encode => exact Laws.CommandCode.encode
  | decode => exact Laws.CommandCode.decode
  | chklen => exact Laws.CommandCode.chklen

theorem decode_encode (i : Instr) : decode (encode i) = .instr i := (commandCode i).2.2.2

/-- A byte decodes to an operation, and then its fields are those of the encoding, or it is reserved (R71, R73). -/
theorem decode_cases (cmd : Byte) :
    (∃ i, decode cmd = .instr i ∧ cmd = encode i) ∨ decode cmd = .illegalOp cmd := by
  unfold decode
  split
  case isFalse => exact .inr rfl
  case isTrue hrsv =>
    cases hop : opInstr (cmdOp cmd) with
    | none => exact .inr rfl
    | some i =>
      refine .inl ⟨i, rfl, ?_⟩
      calc cmd = cmdRsv cmd ++ cmdOp cmd := (rsv_append_op cmd).symm
        _ = encode i := by rw [hrsv, opInstr_eq_some.mp hop]; rfl

theorem decode_eq_instr {cmd : Byte} {i : Instr} : decode cmd = .instr i ↔ cmd = encode i := by
  constructor
  · intro h
    rcases decode_cases cmd with ⟨j, hj, hcmd⟩ | hres
    · cases hj.symm.trans h
      exact hcmd
    · cases hres.symm.trans h
  · rintro rfl
    exact decode_encode i

/-- The bytes of the five operations are 1 to 5 (R72). -/
theorem exists_encode_iff {cmd : Byte} : (∃ i, cmd = encode i) ↔ 1 ≤ cmd.toNat ∧ cmd.toNat ≤ 5 := by
  constructor
  · rintro ⟨i, rfl⟩
    cases i <;> decide
  · intro hrange
    obtain h | h | h | h | h : cmd.toNat = 1 ∨ cmd.toNat = 2 ∨ cmd.toNat = 3 ∨ cmd.toNat = 4 ∨ cmd.toNat = 5 := by
      omega
    · exact ⟨.pack, BitVec.eq_of_toNat_eq h⟩
    · exact ⟨.unpack, BitVec.eq_of_toNat_eq h⟩
    · exact ⟨.encode, BitVec.eq_of_toNat_eq h⟩
    · exact ⟨.decode, BitVec.eq_of_toNat_eq h⟩
    · exact ⟨.chklen, BitVec.eq_of_toNat_eq h⟩

theorem exists_decode_iff {cmd : Byte} : (∃ i, decode cmd = .instr i) ↔ 1 ≤ cmd.toNat ∧ cmd.toNat ≤ 5 := by
  simp only [decode_eq_instr, exists_encode_iff]

theorem decode_eq_illegalOp {cmd : Byte} : decode cmd = .illegalOp cmd ↔ ¬(1 ≤ cmd.toNat ∧ cmd.toNat ≤ 5) := by
  rw [← exists_decode_iff]
  constructor
  · rintro hres ⟨i, hi⟩
    cases hres.symm.trans hi
  · intro hnone
    exact (decode_cases cmd).resolve_left fun ⟨i, hi, _⟩ => hnone ⟨i, hi⟩

/-- Settles O1: the five bytes are the encodings of the operations, and the others are not 1 to 5. -/
theorem decodeReadsSpecBytes : Obligations.DecodeReadsSpecBytes := by
  refine ⟨decode_encode .pack, decode_encode .unpack, decode_encode .encode, decode_encode .decode,
    decode_encode .chklen, ?_, ?_, ?_, ?_, ?_, ?_, ?_, ?_⟩
  all_goals exact decode_eq_illegalOp.mpr (by decide)

/-- Settles O2: `RSV` is the quotient by 8 and `OP` the remainder, so the bytes that select are 1 to 5. -/
theorem onlyFiveBytesSelect : Obligations.OnlyFiveBytesSelect := by
  intro cmd
  rw [exists_decode_iff]
  omega

/-- Settles O3: an operation's encoding is the one byte that decodes to it. -/
theorem encodeDecodeRoundTrip : Obligations.EncodeDecodeRoundTrip := by
  intro i _
  obtain ⟨_, _, hwf, hdec⟩ := commandCode i
  exact ⟨hdec, hwf, fun _ => decode_eq_instr.mp⟩

theorem runCommand_reserved {cmd : Byte} (h : ¬(1 ≤ cmd.toNat ∧ cmd.toNat ≤ 5)) (s : State) :
    runCommand cmd s = .next { s with STATUS := 0x04 } := by
  rw [runCommand, decode_eq_illegalOp.mpr h]
  rfl

/-- Settles O10: a reserved byte is run as `IllegalOp`, in a step as soon as its event is taken. -/
theorem reservedCommandIsIllegalOp : Obligations.ReservedCommandIsIllegalOp := by
  refine ⟨fun cmd => decode_eq_illegalOp, fun s cmd hres => ⟨runCommand_reserved hres s, fun rest hidle he => ?_⟩⟩
  rw [step_event hidle he]
  exact runCommand_reserved hres _

/-! ### The characters (R76 to R78) -/

theorem isdec_iff {c : Byte} : isdec c = true ↔ 0x30 ≤ c.toNat ∧ c.toNat ≤ 0x39 := by
  simp only [isdec, Bool.and_eq_true, decide_eq_true_eq]

/-- The letters `a` to `f` have the values 10 to 15 (R76). -/
theorem hexval_of_letter {c : Byte} (h : 0x61 ≤ c.toNat ∧ c.toNat ≤ 0x66) :
    ∃ v, hexval c = some v ∧ v.toNat = c.toNat - 0x61 + 10 := by
  refine ⟨BitVec.ofNat 4 (c.toNat - 0x61 + 10), ?_, ?_⟩
  · rw [hexval, if_neg (by omega), if_pos h]
  · rw [BitVec.toNat_ofNat]
    omega

theorem hexval_eq_none {c : Byte} (hdigit : ¬(0x30 ≤ c.toNat ∧ c.toNat ≤ 0x39))
    (hletter : ¬(0x61 ≤ c.toNat ∧ c.toNat ≤ 0x66)) : hexval c = none := by
  rw [hexval, if_neg hdigit, if_neg hletter]

theorem hexchar_toNat_digit {v : Nibble} (h : v.toNat ≤ 9) : (hexchar v).toNat = 0x30 + v.toNat := by
  rw [hexchar, if_pos h, BitVec.toNat_ofNat]
  omega

theorem hexchar_toNat_letter {v : Nibble} (h : 10 ≤ v.toNat) : (hexchar v).toNat = 0x61 + (v.toNat - 10) := by
  rw [hexchar, if_neg (by omega), BitVec.toNat_ofNat]
  omega

/-- The digit value of a decimal character, by subtraction (R78). -/
theorem digitVal_toNat_eq_sub {c : Byte} (h : isdec c = true) : (digitVal c).toNat = c.toNat - 0x30 :=
  Nat.eq_sub_of_add_eq (digitVal_toNat h)

/-- Settles O5: a hex-digit character is a decimal digit or a letter, and each function is read off on either. -/
theorem characterFunctions : Obligations.CharacterFunctions := by
  refine ⟨fun c => ⟨fun hdigit => ?_, hexval_of_letter, hexval_eq_none⟩,
    fun v => ⟨hexchar_toNat_digit, hexchar_toNat_letter, hexval_hexchar v⟩,
    fun c => ⟨isdec_iff, fun hdec => ⟨hexval_of_isdec hdec, digitVal_toNat_eq_sub hdec⟩⟩⟩
  have hdec := isdec_iff.mpr hdigit
  exact ⟨digitVal c, hexval_of_isdec hdec, digitVal_toNat_eq_sub hdec⟩

end Sys2Proof.Machine
end

section
/-! PROOFS. The family of 40_length_validator.md: CHKLEN answers with the verdict of the length test (R100, R101). -/

namespace Sys2Proof.Machine

theorem exec_chklen_valid {s : State} (h : lenOk s.SLEN.toNat = true) :
    exec .chklen s = .next { s with STATUS := 0x00 } := by
  rw [exec_chklen, if_pos h]
  rfl

theorem exec_chklen_invalid {s : State} (h : lenOk s.SLEN.toNat = false) :
    exec .chklen s = .next { s with STATUS := 0x01 } := by
  rw [exec_chklen, if_neg (Bool.eq_false_iff.mp h)]
  rfl

/-- Settles O14: the length test says which of its two ends CHKLEN has. -/
theorem chklenOperation : Obligations.ChklenOperation :=
  ⟨fun n => iff_of_eq (lenOk_eq_true n), rfl, fun s =>
    ⟨fun hin => exec_chklen_valid ((lenOk_eq_true s.SLEN.toNat).mpr hin),
      fun hout => exec_chklen_invalid ((lenOk_eq_false s.SLEN.toNat).mpr hout)⟩⟩

end Sys2Proof.Machine
end

section
/-! PROOFS. The family of 41_encode_assembler.md: the block that an answered assembly leaves, nibble by nibble (R111,
R113, R119), and the draws that an ENCODE takes, counted with those it still needs (R117). -/

namespace Sys2Proof.Machine

/-! ### The nibbles of a byte buffer (20_memory.md R52) -/

/-- A byte buffer filled with a block has the nibbles of its bytes. -/
theorem blockNibble_of_fillB {t : State} {bytes : List Byte} (hB : t.B = fillB bytes) {p : Nat} (hp : p < 16) :
    t.blockNibble p = (unpackNibbles bytes)[p]? := by
  have hhalf : p >>> 1 = p / 2 := Nat.shiftRight_one p
  rw [State.blockNibble, hB, hhalf, fillB_getElem? bytes (p / 2) (by omega), cellContent_cellOf, unpackNibbles_getElem?]

/-- The byte whose two nibbles are known is written with them. -/
theorem byte_of_blockNibbles {t : State} {i : Nat} {h l : Nibble} (hh : t.blockNibble (2 * i) = some h)
    (hl : t.blockNibble (2 * i + 1) = some l) : ∃ b, t.B[i]? = some (Cell.holding b) ∧ hi b = h ∧ lo b = l := by
  have heven : (2 * i) >>> 1 = i := by rw [Nat.shiftRight_one]; omega
  have hodd : (2 * i + 1) >>> 1 = i := by rw [Nat.shiftRight_one]; omega
  rw [State.blockNibble, heven, Option.map_eq_some_iff] at hh
  obtain ⟨b, hb, hhi⟩ := hh
  rw [State.blockNibble, hodd, hb, Option.map_some, Option.some_inj] at hl
  exact ⟨b, cellContent_eq_some.mp hb, by simpa using hhi, by simpa [Nat.add_mod] using hl⟩

/-! ### The block of an answered assembly (R111) -/

section Answered

variable {s : State} {N : List Nibble} (hle : N.length ≤ 16) (hc : s.source.canAnswer (16 - N.length) = true)
include hle hc

/-- Whatever the nibbles and the draws: `BLEN` 8, `STATUS` 0x00, the wait over and exactly the missing draws taken. -/
theorem assemble_answered_frame : s.assemble N = { s with
    B := (s.assemble N).B, BLEN := 8, STATUS := 0x00, waiting := none
    source := s.source.after (16 - N.length), draws := s.draws + (16 - N.length) } := by
  have hlen : (packNibbles (N ++ s.drawn (16 - N.length))).length = 8 := by
    rw [packNibbles_length, List.length_append, (drawn_length_eq s _).mpr hc]
    omega
  have hBLEN : (s.assemble N).BLEN = 8 := by
    rw [assemble_complete hle hc, State.endWait_BLEN, State.completeB_BLEN, hlen]
    rfl
  rw [← hBLEN, assemble_complete hle hc]
  rfl

/-- The sixteen nibbles are those laid out before and then the draws, in order. -/
theorem assemble_blockNibble {p : Nat} (hp : p < 16) :
    (s.assemble N).blockNibble p = (N ++ s.drawn (16 - N.length))[p]? := by
  have heven : (N ++ s.drawn (16 - N.length)).length % 2 = 0 := by
    rw [List.length_append, (drawn_length_eq s _).mpr hc]
    omega
  rw [assemble_complete hle hc, blockNibble_of_fillB rfl hp, unpackNibbles_packNibbles, heven, List.replicate_zero,
    List.append_nil]

theorem assemble_blockNibble_start {p : Nat} (hp : p < N.length) : (s.assemble N).blockNibble p = N[p]? := by
  rw [assemble_blockNibble hle hc (by omega), List.getElem?_append_left hp]

theorem assemble_blockNibble_draw {j : Nat} (hj : j < 16 - N.length) :
    (s.assemble N).blockNibble (N.length + j) = (s.drawn (16 - N.length))[j]? := by
  rw [assemble_blockNibble hle hc (by omega), List.getElem?_append_right (by omega), Nat.add_sub_cancel_left]

end Answered

/-- A source that answers all requests has an answer to each. -/
theorem drawn_getElem?_some {s : State} {need j : Nat} (hc : s.source.canAnswer need = true) (hj : j < need) :
    ∃ v, (s.drawn need)[j]? = some v :=
  ⟨_, List.getElem?_eq_getElem (by rwa [(drawn_length_eq s need).mpr hc])⟩

/-- A source that answers one request gives some answer when more are asked for. -/
theorem drawn_length_pos {s : State} {need : Nat} (hc : s.source.canAnswer 1 = true) (hneed : 0 < need) :
    0 < (s.drawn need).length := by
  unfold State.drawn
  cases hsrc : s.source with
  | live => simpa [RandomSource.answers] using hneed
  | stub left =>
    rw [hsrc] at hc
    have hleft : 1 ≤ left.length := of_decide_eq_true hc
    rw [RandomSource.answers, List.length_take]
    omega

/-! ### The fixed part of the block (R113, R119) -/

/-- The block of `t` begins with the control nibble, the length in `SLEN` and the digits of the string in `S` of `s`. -/
def State.PinLaidOut (s t : State) : Prop :=
  t.blockNibble 0 = some 1 ∧
  (∃ v, t.blockNibble 1 = some v ∧ v.toNat = s.SLEN.toNat) ∧
  ∀ k : Nat, k < s.SLEN.toNat → ∃ c, s.S[k]? = some (Cell.holding c) ∧
    ∃ v, t.blockNibble (2 + k) = some v ∧ v.toNat + 0x30 = c.toNat

/-- A block that goes on from sound nibbles of a written string begins with them. -/
theorem State.SoundStart.pinLaidOut {s t : State} {N : List Nibble} (h : s.SoundStart N)
    (hw : s.StringWritten s.SLEN.toNat) (hstart : ∀ p, p < N.length → t.blockNibble p = N[p]?) : s.PinLaidOut t := by
  obtain ⟨hok, hlow, hnibbles⟩ := h
  obtain ⟨_, hmax⟩ := (lenOk_eq_true _).mp hok
  obtain ⟨hcontrol, hlength, hdigits⟩ := hnibbles hw
  refine ⟨(hstart 0 (by omega)).trans hcontrol, ⟨_, (hstart 1 (by omega)).trans hlength, ?_⟩, fun k hk => ?_⟩
  · rw [BitVec.toNat_ofNat]
    omega
  · obtain ⟨c, hc, _, v, hv, hval⟩ := hdigits k hk
    exact ⟨c, hc, v, (hstart (2 + k) (by omega)).trans hv, hval⟩

/-- ENCODE of a PIN whose draws are all answered, whole: its frame, the fixed part of its block, and the fill. -/
theorem exec_encode_block {s : State} (hok : lenOk s.SLEN.toNat = true) (hw : s.StringWritten s.SLEN.toNat)
    (hdec : s.AllDec) (hc : s.source.canAnswer (14 - s.SLEN.toNat) = true) :
    ∃ t, exec .encode s = .next t ∧
      t = { s with
        B := t.B, BLEN := 8, STATUS := 0x00, waiting := none
        source := s.source.after (14 - s.SLEN.toNat), draws := s.draws + (14 - s.SLEN.toNat) } ∧
      s.PinLaidOut t ∧
      ∀ j, j < 14 - s.SLEN.toNat →
        t.blockNibble (2 + s.SLEN.toNat + j) = (s.drawn (14 - s.SLEN.toNat))[j]? := by
  have hsound := soundStart_pinHeader hok hw hdec
  have hlen : (pinHeader s.stringOperand).length = 2 + s.SLEN.toNat := by rw [pinHeader_length, stringOperand_length]
  have hle : (pinHeader s.stringOperand).length ≤ 16 := by
    obtain ⟨_, hmax⟩ := (lenOk_eq_true _).mp hok
    omega
  have hfill := pinHeader_fill hok
  rw [← hfill] at hc ⊢
  refine ⟨_, exec_encode_eq hok hw hdec, assemble_answered_frame hle hc,
    hsound.pinLaidOut hw fun p => assemble_blockNibble_start hle hc, fun j hj => ?_⟩
  rw [← hlen]
  exact assemble_blockNibble_draw hle hc hj

/-- Settles O17: the two faults by their tests, the block from `exec_encode_block`. -/
theorem encodeOperation : Obligations.EncodeOperation := by
  refine ⟨rfl, fun s => ⟨fun hlen => ?_, fun k c hmin hmax hk hw hS hbad => ?_, fun hmin hmax hw hdec hc => ?_⟩⟩
  · exact exec_encode_invalidPinLength ((lenOk_eq_false _).mpr hlen)
  · have hnot : ¬s.AllDec := fun hall => by
      have hdigit := hall k hk
      rw [charAt_of_written hS, hbad] at hdigit
      cases hdigit
    exact exec_encode_badDigit ((lenOk_eq_true _).mpr ⟨hmin, hmax⟩) (scanWritten_of_bad hw hS hbad) hnot
  · obtain ⟨t, h, hframe, ⟨hcontrol, hlength, hdigits⟩, hfill⟩ :=
      exec_encode_block ((lenOk_eq_true _).mpr ⟨hmin, hmax⟩) hw hdec hc
    refine ⟨t, h, hframe, hcontrol, hlength, fun k hk => ?_, fun j hj => ?_⟩
    · obtain ⟨c, hS, v, hv, hval⟩ := hdigits k hk
      exact ⟨v, hv, by rw [charAt_of_written hS]; omega⟩
    · obtain ⟨v, hv⟩ := drawn_getElem?_some hc hj
      exact ⟨v, (hfill j hj).trans hv, hv⟩

/-- Settles O18: the draws of a stub are the first of its answers. -/
theorem encodeTakesStubAnswersInOrder : Obligations.EncodeTakesStubAnswersInOrder := by
  intro s answers hmin hmax hw hdec hsrc henough
  have hc : s.source.canAnswer (14 - s.SLEN.toNat) = true := by
    rw [hsrc]
    exact decide_eq_true henough
  obtain ⟨t, h, hframe, _, hfill⟩ := exec_encode_block ((lenOk_eq_true _).mpr ⟨hmin, hmax⟩) hw hdec hc
  refine ⟨t, h, by rw [hframe], by rw [hframe, hsrc]; rfl, fun j hj => ?_⟩
  rw [hfill j hj, drawn_stub hsrc, List.getElem?_take_of_lt hj]

/-- An ENCODE of written cells completes only with a PIN in `S` and with all its draws answered. -/
theorem encode_completed {s t : State} (hwritten : s.OperandWritten .encode) (h : exec .encode s = .next t)
    (hover : t.waiting = none) (hdone : t.STATUS = 0x00) :
    lenOk s.SLEN.toNat = true ∧ s.StringWritten s.SLEN.toNat ∧ s.AllDec ∧
      s.source.canAnswer (14 - s.SLEN.toNat) = true := by
  rcases exec_encode_cases s with ⟨_, hu⟩ | ⟨_, _, _, hu⟩ | ⟨hok, hw, hdec, _⟩ | ⟨hok, hopen, _⟩
  · cases h.symm.trans hu
    cases hdone
  · cases h.symm.trans hu
    cases hdone
  · refine ⟨hok, hw, hdec, Bool.eq_true_of_not_eq_false fun hsilent => ?_⟩
    cases h.symm.trans (exec_encode_unanswered hok hw hdec hsilent)
    cases hover
  · obtain ⟨hmin, hmax⟩ := (lenOk_eq_true _).mp hok
    exact absurd (hwritten hmin hmax) hopen

theorem stringWritten_of_holdsString {s : State} {text : List Byte} (h : s.HoldsString text) :
    s.StringWritten s.SLEN.toNat := by
  obtain ⟨hlen, hcells⟩ := h
  exact fun k hk => cellWritten_eq_true.mpr ⟨_, hcells k _ (List.getElem?_eq_getElem (hlen ▸ hk))⟩

/-- An ENCODE of the string `text` that completes: the string is a PIN, and the block is a function of it and of the
draws (R121). -/
theorem encode_completed_of_holdsString {s t : State} {text : List Byte} (hs : s.HoldsString text)
    (h : exec .encode s = .next t) (hover : t.waiting = none) (hdone : t.STATUS = 0x00) :
    lenOk text.length = true ∧ text.all isdec = true ∧ (s.drawn (14 - text.length)).length = 14 - text.length ∧
      t.B = fillB (encodePin text (s.drawn (14 - text.length))) := by
  obtain ⟨hok, hw, hdec, hc⟩ :=
    encode_completed (fun _ _ => scanWritten_of_written (stringWritten_of_holdsString hs)) h hover hdone
  cases h.symm.trans (exec_encode_answered hok hw hdec hc)
  rw [← all_isdec_eq, stringOperand_of_holdsString hs] at hdec
  rw [hs.1] at hok hc
  refine ⟨hok, hdec, (drawn_length_eq s _).mpr hc, ?_⟩
  rw [State.endWait_B, State.completeB_B, stringOperand_of_holdsString hs, hs.1]

/-- ENCODE of a PIN given as a string completes when its draws are answered. -/
theorem exec_encode_of_holdsString {s : State} {text : List Byte} (hs : s.HoldsString text)
    (hok : lenOk text.length = true) (hdec : text.all isdec = true)
    (hall : (s.drawn (14 - text.length)).length = 14 - text.length) :
    ∃ t, exec .encode s = .next t ∧ t.waiting = none ∧ t.STATUS = 0x00 := by
  rw [← stringOperand_of_holdsString hs, all_isdec_eq] at hdec
  rw [drawn_length_eq] at hall
  rw [← hs.1] at hok hall
  exact ⟨_, exec_encode_answered hok (stringWritten_of_holdsString hs) hdec hall, rfl, rfl⟩

/-- Settles O19: the fixed part is laid out before the draws, and the block is `encodePin` of the PIN and the draws. -/
theorem encodeFixedPart : Obligations.EncodeFixedPart := by
  refine ⟨fun s t hwritten h hover hdone => ?_, fun s s' t t' text hs hs' hdrawn h h' hover hdone => ?_⟩
  · obtain ⟨hok, hw, hdec, hc⟩ := encode_completed hwritten h hover hdone
    obtain ⟨u, hu, hframe, ⟨hcontrol, ⟨n, hn, hlength⟩, hdigits⟩, _⟩ := exec_encode_block hok hw hdec hc
    cases h.symm.trans hu
    obtain ⟨b, hb, hhi, hlo⟩ := byte_of_blockNibbles (i := 0) hcontrol hn
    exact ⟨⟨b, hb, by rw [hhi]; rfl, by rw [hlo, hlength]⟩, by rw [hframe], hdigits⟩
  · obtain ⟨hok, hdec, hall, hB⟩ := encode_completed_of_holdsString hs h hover hdone
    rw [hdrawn] at hall hB
    obtain ⟨u, hu, hover', hdone'⟩ := exec_encode_of_holdsString hs' hok hdec hall
    cases h'.symm.trans hu
    obtain ⟨_, _, _, hB'⟩ := encode_completed_of_holdsString hs' h' hover' hdone'
    exact ⟨hover', hdone', hB'.trans hB.symm⟩

/-- Settles O44: the assembly goes on from a sound part of a block, and is over or has the source silent. -/
theorem waitingEncodeGoesOn : Obligations.WaitingEncodeGoesOn := by
  intro s N hinv hN hanswers
  obtain ⟨hsound, hlt⟩ := soundStart_of_waiting hinv.2 hN
  have hle : N.length ≤ 16 := Nat.le_of_lt hlt
  have hstep := step_goesOn hN hanswers
  refine ⟨fun hc => ?_, fun hc => ?_⟩
  · have hstart : ∀ p, p < N.length → (s.assemble N).blockNibble p = N[p]? := fun p =>
      assemble_blockNibble_start hle hc
    refine ⟨_, hstep, assemble_answered_frame hle hc, fun hw => hsound.pinLaidOut hw hstart, hstart, fun j hj => ?_⟩
    obtain ⟨v, hv⟩ := drawn_getElem?_some hc hj
    exact ⟨v, (assemble_blockNibble_draw hle hc hj).trans hv, hv⟩
  · have hfew : (s.drawn (16 - N.length)).length ≠ 16 - N.length := fun hall =>
      absurd ((drawn_length_eq s _).mp hall) (by simp [hc])
    have hbound := drawn_length s (16 - N.length)
    rw [assemble_wait hc] at hstep
    exact ⟨_, _, hstep, rfl, drawn_length_pos hanswers (by omega), by omega, RandomSource.after_silent hc, rfl⟩

/-! ### The draws taken and still needed (R117) -/

theorem drawsNeeded_of_waiting {s : State} {N : List Nibble} (hN : s.waiting = some N) :
    s.drawsNeeded = 16 - N.length := by
  simp only [State.drawsNeeded, hN]

theorem drawsNeeded_of_idle {s : State} (hidle : s.waiting = none) : s.drawsNeeded = 0 := by
  simp only [State.drawsNeeded, hidle]

/-- The assembler takes the draws that are missing or waits for the rest of them. -/
theorem assemble_draws (s : State) (N : List Nibble) :
    (s.assemble N).draws + (s.assemble N).drawsNeeded = s.draws + (16 - N.length) := by
  have hbound := drawn_length s (16 - N.length)
  rcases assemble_cases s N with ⟨got, rfl, hlt, h⟩ | ⟨got, rfl, hge, h⟩ <;> rw [h]
  · rw [drawsNeeded_of_waiting (State.wait_waiting _ _), List.length_append]
    simp only [State.wait_draws, State.afterDraws_draws]
    omega
  · rw [drawsNeeded_of_idle (State.endWait_waiting _)]
    simp only [State.endWait_draws, State.completeB_draws, State.afterDraws_draws]
    omega

namespace Leaves

variable {i : Instr} {r t : State}

/-- Nothing but an assembly reaches the random source. -/
theorem source_eq (h : Leaves i r t) (hi : i ≠ .encode) : t.source = r.source ∧ t.draws = r.draws := by
  cases h with
  | assembled he => exact absurd he hi
  | _ => exact ⟨rfl, rfl⟩

/-- What ends in a fault has not been assembled. -/
theorem source_eq_of_fault (h : Leaves i r t) (hover : t.waiting = none) (hfault : statusFault t.STATUS ≠ 0) :
    t.source = r.source ∧ t.draws = r.draws := by
  cases h with
  | assembled _ N _ hle =>
    obtain ⟨_, _, _, _, hdone⟩ := assemble_finished hle hover
    rw [hdone] at hfault
    exact absurd rfl hfault
  | _ => exact ⟨rfl, rfl⟩

/-- ENCODE leaves a fault and nothing else, or what the assembler makes of at least `2 + SLEN` nibbles. -/
theorem encode_cases (h : Leaves .encode r t) :
    (∃ v, t = r.setStatus v) ∨ ∃ N, 2 + r.SLEN.toNat ≤ N.length ∧ t = r.assemble N := by
  cases h with
  | fault v => exact .inl ⟨v, rfl⟩
  | intoS hi => simp at hi
  | valid hi | intoB hi => cases hi
  | assembled _ N hsound =>
    obtain ⟨_, hlow, _⟩ := hsound
    exact .inr ⟨N, hlow, rfl⟩

/-- The bound `14 - n` on the draws of an ENCODE and, on an idle core, on those it still needs as well. -/
theorem encode_draws_le (h : Leaves .encode r t) :
    t.draws ≤ r.draws + (14 - r.SLEN.toNat) ∧
    (r.waiting = none → t.draws + t.drawsNeeded ≤ r.draws + (14 - r.SLEN.toNat)) := by
  rcases h.encode_cases with ⟨v, rfl⟩ | ⟨N, hlow, rfl⟩
  · refine ⟨Nat.le_add_right _ _, fun hidle => ?_⟩
    rw [drawsNeeded_of_idle (s := r.setStatus v) hidle]
    exact Nat.le_add_right _ _
  · have hsum := assemble_draws r N
    exact ⟨by omega, fun _ => by omega⟩

end Leaves

/-- An ENCODE of written cells that hold no PIN raises a fault before any draw. -/
theorem encode_rejected_draws {s t : State} (hwritten : s.OperandWritten .encode) (h : exec .encode s = .next t)
    (hbad : s.SLEN.toNat < 4 ∨ 12 < s.SLEN.toNat ∨ ¬s.AllDec) : t.source = s.source ∧ t.draws = s.draws := by
  rcases exec_encode_cases s with ⟨_, hu⟩ | ⟨_, _, _, hu⟩ | ⟨hok, _, hdec, _⟩ | ⟨hok, hopen, _⟩
  · cases h.symm.trans hu
    exact ⟨rfl, rfl⟩
  · cases h.symm.trans hu
    exact ⟨rfl, rfl⟩
  · obtain ⟨hmin, hmax⟩ := (lenOk_eq_true _).mp hok
    rcases hbad with hshort | hlong | hno
    · omega
    · omega
    · exact absurd hdec hno
  · obtain ⟨hmin, hmax⟩ := (lenOk_eq_true _).mp hok
    exact absurd (hwritten hmin hmax) hopen

/-- A step of a waiting core: an answering source keeps the sum of the draws taken and needed, a silent one leaves the
draws as they are and can only have the need dropped. -/
theorem stepWaiting_draws {s : State} {N : List Nibble} (hN : s.waiting = some N) :
    (s.stepWaiting N).draws + (s.stepWaiting N).drawsNeeded ≤ s.draws + s.drawsNeeded ∧
    (s.source.canAnswer 1 = true →
      (s.stepWaiting N).draws + (s.stepWaiting N).drawsNeeded = s.draws + s.drawsNeeded) ∧
    (s.source.canAnswer 1 = false → (s.stepWaiting N).draws = s.draws) := by
  rcases stepWaiting_cases s N with ⟨hc, h⟩ | ⟨hc, held, rest, _, _, h⟩ | ⟨hc, held, src, rest, _, _, h⟩ | ⟨hc, _, h⟩ <;>
    rw [h, hc]
  · have hsum : (s.assemble N).draws + (s.assemble N).drawsNeeded = s.draws + s.drawsNeeded := by
      rw [assemble_draws, drawsNeeded_of_waiting hN]
    exact ⟨Nat.le_of_eq hsum, fun _ => hsum, by simp⟩
  · exact ⟨Nat.add_le_add_left (Nat.zero_le _) _, by simp, fun _ => rfl⟩
  · exact ⟨Nat.le_refl _, by simp, fun _ => rfl⟩
  · exact ⟨Nat.le_refl _, by simp, fun _ => rfl⟩

/-- Settles O20: what an operation can leave (`Leaves`), and the sum that the assembler keeps (`assemble_draws`). -/
theorem onlyEncodeDraws : Obligations.OnlyEncodeDraws := by
  refine ⟨fun i s t h => ?_, fun s t N hN h => ?_⟩
  · obtain ⟨n, _, hl⟩ := leaves_of_exec h
    refine ⟨hl.source_eq, ?_, ?_, ?_, fun _ => hl.source_eq_of_fault⟩
    · rintro rfl
      exact hl.encode_draws_le.1
    · rintro rfl
      exact hl.encode_draws_le.2
    · rintro rfl hwritten hbad
      exact encode_rejected_draws hwritten h hbad
  · cases (step_waiting hN).symm.trans h
    exact stepWaiting_draws hN

end Sys2Proof.Machine
end

section
/-! PROOFS. The family of 42_decode_extractor.md: the PIN that DECODE reads from a block, character by character (R131,
R136, R138), its length nibble and `MALF` (R134, R135, R141), what has no influence on it (R132, R137), and the round
trip with ENCODE (R139). -/

namespace Sys2Proof.Machine

/-! ### The PIN of a block (R131) -/

/-- The nibble that character `k` of the PIN is spelled from: nibble `2 + k` of the buffer, as it reads now. -/
def State.pinNibble (s : State) (k : Nat) : Nibble :=
  if k % 2 = 0 then hi (s.byteAt (1 + k / 2)) else lo (s.byteAt (1 + k / 2))

/-- The string that the block spells: one character for each of the `L` nibbles of the PIN. -/
def State.pinText (s : State) : List Byte := (List.range s.blockLength).map fun k => hexchar (s.pinNibble k)

@[simp] theorem pinText_length (s : State) : s.pinText.length = s.blockLength := by
  simp [State.pinText]

theorem pinText_getElem? {s : State} {k : Nat} (hk : k < s.blockLength) :
    s.pinText[k]? = some (hexchar (s.pinNibble k)) := by
  simp [State.pinText, hk]

theorem unpackNibbles_pinBytes_getElem? {s : State} {k : Nat} (hk : k < s.blockLength) :
    (unpackNibbles s.pinBytes)[k]? = some (s.pinNibble k) := by
  rw [unpackNibbles_getElem?, pinBytes_getElem? (by rw [ceil2_eq]; omega)]
  rfl

/-- Unpacking the bytes of the PIN and cutting to the length drops the pad nibble of an odd length (R136). -/
theorem decodePin_eq_pinText (s : State) : decodePin s.blockLength s.pinBytes = s.pinText := by
  refine List.ext_getElem? fun k => ?_
  rw [decodePin, List.getElem?_take]
  split
  · rename_i hk
    rw [unpack, List.getElem?_map, unpackNibbles_pinBytes_getElem? hk, pinText_getElem? hk, Option.map_some]
  · rename_i hk
    rw [List.getElem?_eq_none (by rw [pinText_length]; omega)]

/-- `STATUS` of a completion by the length nibble: `MALF` is set when the length is no PIN length (R134, R141). -/
theorem statusByte_not_lenOk {n : Nat} (hle : n ≤ 12) :
    statusByte (!lenOk n) .noFault = if 4 ≤ n then 0x00 else 0x10 := by
  split
  · rw [(lenOk_eq_true n).mpr ⟨‹_›, hle⟩]
    rfl
  · rw [(lenOk_eq_false n).mpr (.inl (by omega))]
    rfl

/-- DECODE of a block whose length nibble is at most 12 never faults (R138). -/
theorem exec_decode_pinText {s : State} (hlen : s.BLEN = 8) (hw : s.BlockWritten) (hL : s.blockLength ≤ 12) :
    exec .decode s = .next (s.completeS s.pinText (!lenOk s.blockLength)) := by
  rw [exec_decode_eq (congrArg BitVec.toNat hlen) hw hL, decodePin_eq_pinText]

/-- The length register after DECODE holds the length nibble. -/
theorem completeS_pinText_SLEN {s : State} {malf : Bool} :
    (s.completeS s.pinText malf).SLEN.toNat = s.blockLength := by
  have hlt := blockLength_lt s
  rw [State.completeS_SLEN, pinText_length, BitVec.toNat_ofNat]
  omega

/-- Settles O23: the two faults by their tests, the result from `exec_decode_pinText`. -/
theorem decodeOperation : Obligations.DecodeOperation := by
  refine ⟨rfl, fun s => ⟨fun hne => ?_, fun hlen hw hL => ?_, fun hlen hw hL => ?_⟩⟩
  · exact exec_decode_badCount (BitVec.toNat_ne_iff_ne.mpr hne)
  · exact exec_decode_overrun (congrArg BitVec.toNat hlen) hw hL
  · refine ⟨_, exec_decode_pinText hlen hw hL, ?_, completeS_pinText_SLEN, fun k hk => ?_, fun k hk hk16 => ?_⟩
    · rw [← statusByte_not_lenOk hL]
      rfl
    · rw [State.completeS_S, fillS_getElem? _ k (by omega), pinText_getElem? hk]
      rfl
    · rw [State.completeS_S, fillS_getElem? _ k hk16]
      exact (cellOf_getElem? s.pinText k).2 (by rwa [pinText_length])

/-! ### The length nibble outside 4 to 12 (R134, R135, R141) -/

/-- Settles O24: a length nibble of 13 or more raises `DecodeOverrun`, every other one completes. -/
theorem decodeLengthNibbleOutsideRange : Obligations.DecodeLengthNibbleOutsideRange := by
  refine ⟨fun s b hlen hb hw => ?_, fun s hne => ?_⟩
  · have hL : s.blockLength = b.toNat % 16 := by rw [State.blockLength, byteAt_of_written hb, lo_toNat]
    rw [← hL]
    rcases Nat.lt_or_ge 12 s.blockLength with hgt | hle
    · have hfault : statusFault (s.raise .decodeOverrun).STATUS ≠ 0 := by
        rw [State.raise_STATUS, statusFault_statusByte]
        decide
      have hmalf : statusMalf (s.raise .decodeOverrun).STATUS = true := by simp
      exact ⟨_, exec_decode_overrun (congrArg BitVec.toNat hlen) hw hgt, fun hshort => absurd hgt (by omega),
        fun _ => ⟨rfl, rfl, rfl⟩, iff_of_true hfault hgt, iff_of_true hmalf (by omega)⟩
    · refine ⟨_, exec_decode_pinText hlen hw hle, fun hshort => ⟨?_, completeS_pinText_SLEN, fun k hk => ?_⟩,
        fun hlong => absurd hle (by omega), ?_, ?_⟩
      · rw [State.completeS_STATUS, statusByte_not_lenOk hle, if_neg (by omega)]
      · rw [State.completeS_S, fillS_getElem? _ k (by omega), pinText_getElem? hk]
        exact ⟨_, rfl⟩
      · rw [State.completeS_STATUS, statusFault_statusByte]
        exact iff_of_false (fun hfault => hfault rfl) (by omega)
      · rw [State.completeS_STATUS, statusMalf_statusByte, Bool.not_eq_true', ← Bool.not_eq_true, lenOk_eq_true]
  · exact ⟨_, exec_decode_badCount (BitVec.toNat_ne_iff_ne.mpr hne), by simp⟩

/-! ### What DECODE reads of a block, by nibbles (R132, R137) -/

/-- A nibble that is known is half of a byte that is written. -/
theorem byte_of_blockNibble {s : State} {p : Nat} {v : Nibble} (h : s.blockNibble p = some v) :
    ∃ b, s.B[p / 2]? = some (Cell.holding b) ∧ (if p % 2 = 0 then hi b else lo b) = v := by
  rw [State.blockNibble, Nat.shiftRight_one, Option.map_eq_some_iff] at h
  obtain ⟨b, hb, hv⟩ := h
  exact ⟨b, cellContent_eq_some.mp hb, hv⟩

theorem written_of_blockNibble {s : State} {p i : Nat} (h : (s.blockNibble p).isSome) (hi : p / 2 = i) :
    cellWritten s.B[i]? = true := by
  obtain ⟨v, hv⟩ := Option.isSome_iff_exists.mp h
  obtain ⟨b, hb, _⟩ := byte_of_blockNibble hv
  exact cellWritten_eq_true.mpr ⟨b, hi ▸ hb⟩

theorem blockLength_of_blockNibble {s : State} {len : Nibble} (h : s.blockNibble 1 = some len) :
    s.blockLength = len.toNat := by
  obtain ⟨b, hb, hlo⟩ := byte_of_blockNibble h
  rw [State.blockLength, byteAt_of_written hb]
  exact congrArg BitVec.toNat hlo

theorem pinNibble_of_blockNibble {s : State} {k : Nat} {v : Nibble} (h : s.blockNibble (2 + k) = some v) :
    s.pinNibble k = v := by
  obtain ⟨b, hb, hv⟩ := byte_of_blockNibble h
  rw [show (2 + k) / 2 = 1 + k / 2 by omega] at hb
  rw [State.pinNibble, byteAt_of_written hb, ← hv, Nat.add_mod_left]

/-- The length nibble and the nibbles of the PIN are all that DECODE needs: the other half of their bytes is written
with them. -/
theorem blockWritten_of_blockNibbles {s : State} {len : Nibble} (hlen : s.blockNibble 1 = some len)
    (hpin : ∀ k, k < len.toNat → (s.blockNibble (2 + k)).isSome) : s.BlockWritten := by
  have hfirst : cellWritten s.B[0]? = true := written_of_blockNibble (p := 1) (Option.isSome_of_eq_some hlen) rfl
  refine ⟨fun i hi => ?_, fun _ i hi => ?_⟩
  · rwa [show i = 0 by omega]
  · rw [blockLength_of_blockNibble hlen] at hi
    cases i with
    | zero => exact hfirst
    | succ j => exact written_of_blockNibble (hpin (2 * j) (by omega)) (by omega)

/-- DECODE of a block given by its length nibble and the nibbles of its PIN. -/
theorem exec_decode_of_blockNibbles {s : State} {len : Nibble} (hBLEN : s.BLEN = 8) (hle : len.toNat ≤ 12)
    (hlen : s.blockNibble 1 = some len) (hpin : ∀ k, k < len.toNat → (s.blockNibble (2 + k)).isSome) :
    exec .decode s = .next (s.completeS s.pinText (!lenOk len.toNat)) := by
  have hL := blockLength_of_blockNibble hlen
  rw [← hL]
  exact exec_decode_pinText hBLEN (blockWritten_of_blockNibbles hlen hpin) (hL ▸ hle)

theorem pinText_congr {s s' : State} (hL : s.blockLength = s'.blockLength)
    (hpin : ∀ k, k < s.blockLength → s.pinNibble k = s'.pinNibble k) : s.pinText = s'.pinText := by
  rw [State.pinText, State.pinText, ← hL]
  exact List.map_congr_left fun k hk => by rw [hpin k (List.mem_range.mp hk)]

/-- Settles O25: the two states spell the same PIN, and the completion writes nothing else of the block. -/
theorem decodeIgnoresControlAndFill : Obligations.DecodeIgnoresControlAndFill := by
  intro s s' t t' len hBLEN hBLEN' hle hlen hlen' hpin h h'
  have hL := blockLength_of_blockNibble hlen
  have hL' := blockLength_of_blockNibble hlen'
  have htext : s.pinText = s'.pinText := by
    refine pinText_congr (hL.trans hL'.symm) fun k hk => ?_
    obtain ⟨hsame, hsome⟩ := hpin k (hL ▸ hk)
    obtain ⟨v, hv⟩ := Option.isSome_iff_exists.mp hsome
    rw [pinNibble_of_blockNibble hv, pinNibble_of_blockNibble (hsame.symm.trans hv)]
  cases h.symm.trans (exec_decode_of_blockNibbles hBLEN hle hlen fun k hk => (hpin k hk).2)
  cases h'.symm.trans (exec_decode_of_blockNibbles hBLEN' hle hlen' fun k hk => (hpin k hk).1 ▸ (hpin k hk).2)
  rw [htext]
  exact ⟨rfl, rfl, rfl⟩

/-! ### The round trip with ENCODE (R139) -/

/-- The nibble that is the digit value of a decimal character is spelled as that character. -/
theorem hexchar_of_digit {v : Nibble} {c : Byte} (hdec : isdec c = true) (hval : v.toNat + 0x30 = c.toNat) :
    hexchar v = c := by
  obtain ⟨_, hmax⟩ := isdec_iff.mp hdec
  exact BitVec.eq_of_toNat_eq (by rw [hexchar_toNat_digit (by omega)]; omega)

/-- A block with the PIN of `s` laid out spells the string in `S` of `s`. -/
theorem State.PinLaidOut.pinText_eq {s t : State} (h : s.PinLaidOut t) (hdec : s.AllDec) :
    t.pinText = s.stringOperand := by
  obtain ⟨_, ⟨len, hlen, hSLEN⟩, hdigits⟩ := h
  rw [State.pinText, State.stringOperand, blockLength_of_blockNibble hlen, hSLEN]
  refine List.map_congr_left fun k hk => ?_
  have hk := List.mem_range.mp hk
  obtain ⟨c, hc, v, hv, hval⟩ := hdigits k hk
  have hchar := charAt_of_written hc
  rw [pinNibble_of_blockNibble hv, hchar]
  exact hexchar_of_digit (hchar ▸ hdec k hk) hval

/-- DECODE of a block with a PIN laid out gives the PIN back. -/
theorem exec_decode_of_pinLaidOut {s t : State} (h : s.PinLaidOut t) (hok : lenOk s.SLEN.toNat = true) (hdec : s.AllDec)
    (hBLEN : t.BLEN = 8) : exec .decode t = .next (t.completeS s.stringOperand false) := by
  obtain ⟨_, hmax⟩ := (lenOk_eq_true _).mp hok
  have htext := h.pinText_eq hdec
  obtain ⟨_, ⟨len, hlen, hSLEN⟩, hdigits⟩ := h
  rw [exec_decode_of_blockNibbles hBLEN (hSLEN ▸ hmax) hlen fun k hk => ?_, htext, hSLEN, hok]
  · rfl
  · obtain ⟨_, _, v, hv, _⟩ := hdigits k (hSLEN ▸ hk)
    exact Option.isSome_of_eq_some hv

/-- What DECODE completes into is written for ENCODE to read. -/
theorem operandWritten_of_decoded {s t : State} (h : exec .decode s = .next t) (hdone : statusFault t.STATUS = 0) :
    t.OperandWritten .encode := by
  obtain ⟨n, _, hl⟩ := leaves_of_exec h
  exact fun _ hmax => scanWritten_of_written fun k hk =>
    cellWritten_eq_true.mpr ((hl.cells_of_S (.inr rfl) hdone (by omega)).1 hk)

/-- The block of an ENCODE of written cells that completed, without the PIN: the length and the decimal digits that it
has, and the fill. -/
theorem encode_completed_block {s t : State} (hwritten : s.OperandWritten .encode) (h : exec .encode s = .next t)
    (hover : t.waiting = none) (hdone : t.STATUS = 0x00) :
    t.blockNibble 0 = some 1 ∧
    ∃ len, t.blockNibble 1 = some len ∧ 4 ≤ len.toNat ∧ len.toNat ≤ 12 ∧
      (∀ k, k < len.toNat → ∃ v, t.blockNibble (2 + k) = some v ∧ v.toNat ≤ 9) ∧
      ∀ j, j < 14 - len.toNat → t.blockNibble (2 + len.toNat + j) = (s.drawn (14 - len.toNat))[j]? := by
  obtain ⟨hok, hw, hdec, hc⟩ := encode_completed hwritten h hover hdone
  obtain ⟨hmin, hmax⟩ := (lenOk_eq_true _).mp hok
  obtain ⟨u, hu, _, ⟨hcontrol, ⟨len, hlen, hSLEN⟩, hdigits⟩, hfill⟩ := exec_encode_block hok hw hdec hc
  cases h.symm.trans hu
  rw [← hSLEN] at hmin hmax hdigits hfill
  refine ⟨hcontrol, len, hlen, hmin, hmax, fun k hk => ?_, hfill⟩
  obtain ⟨c, hS, v, hv, hval⟩ := hdigits k hk
  have hdigit : isdec c = true := charAt_of_written hS ▸ hdec k (hSLEN ▸ hk)
  obtain ⟨_, hcmax⟩ := isdec_iff.mp hdigit
  exact ⟨v, hv, by omega⟩

/-- Settles O26: the PIN laid out by ENCODE is what DECODE spells; and a block that ENCODE gives back has the shape of
one that ENCODE completed. -/
theorem encodeThenDecodeRestoresThePin : Obligations.EncodeThenDecodeRestoresThePin := by
  refine ⟨fun s pin hs hmin hmax hdigits hc => ?_, fun s t u hdecode hdone hencode hover hdone' hsame => ?_⟩
  · have hlen : s.SLEN.toNat = pin.length := hs.1
    have hoperand := stringOperand_of_holdsString hs
    have hok : lenOk s.SLEN.toNat = true := (lenOk_eq_true _).mpr (hlen ▸ ⟨hmin, hmax⟩)
    have hdec : s.AllDec := by rwa [← all_isdec_eq, hoperand, List.all_eq_true]
    obtain ⟨t, h, hframe, hpin, _⟩ := exec_encode_block hok (stringWritten_of_holdsString hs) hdec (hlen ▸ hc)
    have hBLEN : t.BLEN = 8 := by rw [hframe]
    refine ⟨t, _, h, exec_decode_of_pinLaidOut hpin hok hdec hBLEN, ?_, ?_, rfl⟩
    · rw [hoperand]
      exact completeS_holdsString (by omega)
    · rw [State.completeS_SLEN, stringOperand_length, BitVec.ofNat_toNat, BitVec.setWidth_eq]
  · obtain ⟨hcontrol, len, hlen, hmin, hmax, hdigits, hfill⟩ :=
      encode_completed_block (operandWritten_of_decoded hdecode hdone) hencode hover hdone'
    refine ⟨hsame 0 (by omega) ▸ hcontrol, len, hsame 1 (by omega) ▸ hlen, hmin, hmax, fun k hk => ?_, fun j hj => ?_⟩
    · exact hsame (2 + k) (by omega) ▸ hdigits k hk
    · exact hsame (2 + len.toNat + j) (by omega) ▸ hfill j hj

end Sys2Proof.Machine
end

section
/-! PROOFS. The family of 43_bcd_pack_unpack.md: which nibble of a sequence goes where (R150, R151), PACK and UNPACK
whole (R152, R153), and that each undoes the other (R156). -/

namespace Sys2Proof.Machine

/-! ### Nibbles and bytes (R150, R151) -/

/-- Where the nibbles of byte `i` come from; the byte that an odd last nibble ends in has a zero pad. -/
theorem packNibbles_byte {v : List Nibble} {i : Nat} (hi_lt : i < (v.length + 1) / 2) :
    ∃ b, (packNibbles v)[i]? = some b ∧ v[2 * i]? = some (hi b) ∧
      (2 * i + 1 < v.length → v[2 * i + 1]? = some (lo b)) ∧ (2 * i + 1 = v.length → lo b = 0) := by
  have hhigh : v[2 * i]? = some v[2 * i] := List.getElem?_eq_getElem (by omega)
  refine ⟨joinNibbles v[2 * i] (v[2 * i + 1]?.getD 0), ?_, ?_, fun hlt => ?_, fun hodd => ?_⟩
  · rw [packNibbles_getElem?, hhigh, Option.map_some]
  · rw [hhigh, hi_joinNibbles]
  · rw [lo_joinNibbles, List.getElem?_eq_getElem hlt, Option.getD_some]
  · rw [lo_joinNibbles, List.getElem?_eq_none (Nat.le_of_eq hodd.symm), Option.getD_none]

/-- `hexvals_eq_some`, character by character. -/
theorem hexvals_eq_some_iff {text : List Byte} {v : List Nibble} :
    hexvals text = some v ↔
      v.length = text.length ∧ ∀ (k : Nat) (c : Byte), text[k]? = some c → hexval c = v[k]? := by
  constructor
  · intro h
    refine ⟨hexvals_length h, fun k c hc => ?_⟩
    have hk : some (hexval c) = v[k]?.map some := by
      rw [← List.getElem?_map, ← hexvals_eq_some.mp h, List.getElem?_map, hc, Option.map_some]
    obtain ⟨w, hw, hval⟩ := Option.map_eq_some_iff.mp hk.symm
    exact hval.symm.trans hw.symm
  · rintro ⟨hlen, hvals⟩
    refine hexvals_eq_some.mpr (List.ext_getElem (by simp [hlen]) fun k hk hk' => ?_)
    rw [List.length_map] at hk hk'
    rw [List.getElem_map, List.getElem_map, hvals k _ (List.getElem?_eq_getElem hk), List.getElem?_eq_getElem hk']

theorem pack_eq_some {text bytes : List Byte} :
    pack text = some bytes ↔ ∃ v, hexvals text = some v ∧ packNibbles v = bytes :=
  Option.map_eq_some_iff

theorem pack_length {text bytes : List Byte} (h : pack text = some bytes) :
    bytes.length = (text.length + 1) / 2 := by
  obtain ⟨v, hv, rfl⟩ := pack_eq_some.mp h
  rw [packNibbles_length, hexvals_length hv]

/-- Settles O6: the bytes by `packNibbles_byte`, the domain of `pack` by that of `hexvals`. -/
theorem packNibblesRule : Obligations.PackNibblesRule := by
  refine ⟨fun v => ⟨packNibbles_length v, fun i => packNibbles_byte⟩, fun text bytes => ?_⟩
  simp only [pack_eq_some, hexvals_eq_some_iff, and_assoc, eq_comm (a := bytes)]

/-- The two nibbles of byte `i`, the high one first. -/
theorem unpackNibbles_byte {bytes : List Byte} {i : Nat} {b : Byte} (h : bytes[i]? = some b) :
    (unpackNibbles bytes)[2 * i]? = some (hi b) ∧ (unpackNibbles bytes)[2 * i + 1]? = some (lo b) := by
  have heven : 2 * i / 2 = i ∧ 2 * i % 2 = 0 := by omega
  have hodd : (2 * i + 1) / 2 = i ∧ (2 * i + 1) % 2 = 1 := by omega
  constructor
  · rw [unpackNibbles_getElem?, heven.1, heven.2, h]
    rfl
  · rw [unpackNibbles_getElem?, hodd.1, hodd.2, h]
    rfl

/-- The two characters of byte `i`. -/
theorem unpack_byte {bytes : List Byte} {i : Nat} {b : Byte} (h : bytes[i]? = some b) :
    (unpack bytes)[2 * i]? = some (hexchar (hi b)) ∧ (unpack bytes)[2 * i + 1]? = some (hexchar (lo b)) := by
  obtain ⟨hhi, hlo⟩ := unpackNibbles_byte h
  simp only [unpack, List.getElem?_map, hhi, hlo, Option.map_some, and_self]

/-- Settles O7, byte by byte. -/
theorem unpackNibblesRule : Obligations.UnpackNibblesRule := fun bytes =>
  ⟨unpackNibbles_length bytes, unpack_length bytes, fun _ _ h =>
    ⟨(unpackNibbles_byte h).1, (unpackNibbles_byte h).2, unpack_byte h⟩⟩

/-! ### The operations on what the buffers hold (R152, R153) -/

theorem holdsString_stringOperand {s : State} (hw : s.StringWritten s.SLEN.toNat) :
    s.HoldsString s.stringOperand := by
  refine ⟨(stringOperand_length s).symm, fun k c hc => ?_⟩
  have hk : k < s.SLEN.toNat := stringOperand_length s ▸ (List.getElem?_eq_some_iff.mp hc).1
  obtain ⟨c', hcell⟩ := cellWritten_eq_true.mp (hw k hk)
  rw [stringOperand_getElem? hk, charAt_of_written hcell] at hc
  cases hc
  exact hcell

theorem holdsBytes_bytesOperand {s : State} (hw : s.BytesWritten s.BLEN.toNat) :
    s.HoldsBytes s.bytesOperand := by
  refine ⟨(bytesOperand_length s).symm, fun i b hb => ?_⟩
  have hi : i < s.BLEN.toNat := bytesOperand_length s ▸ (List.getElem?_eq_some_iff.mp hb).1
  obtain ⟨b', hcell⟩ := cellWritten_eq_true.mp (hw i hi)
  rw [bytesOperand_getElem? hi, byteAt_of_written hcell] at hb
  cases hb
  exact hcell

theorem bytesWritten_of_holdsBytes {s : State} {bytes : List Byte} (h : s.HoldsBytes bytes) :
    s.BytesWritten s.BLEN.toNat := by
  obtain ⟨hlen, hcells⟩ := h
  exact fun i hi => cellWritten_eq_true.mpr ⟨_, hcells i _ (List.getElem?_eq_getElem (hlen ▸ hi))⟩

theorem exec_pack_of_holdsString {s : State} {text bytes : List Byte} (hs : s.HoldsString text)
    (hfit : text.length ≤ 16) (hpack : pack text = some bytes) : exec .pack s = .next (s.completeB bytes) := by
  obtain ⟨v, hv, rfl⟩ := pack_eq_some.mp hpack
  rw [← stringOperand_of_holdsString hs] at hv
  exact exec_pack_eq (hs.1 ▸ hfit) (stringWritten_of_holdsString hs) hv

theorem exec_unpack_of_holdsBytes {s : State} {bytes : List Byte} (hs : s.HoldsBytes bytes)
    (hfit : bytes.length ≤ 8) : exec .unpack s = .next (s.completeS (unpack bytes) false) := by
  rw [exec_unpack_eq (hs.1 ▸ hfit) (bytesWritten_of_holdsBytes hs), bytesOperand_of_holdsBytes hs]

/-- The string operand is in the domain of `pack` when every character of it has a value. -/
theorem exists_pack_of_allHex {s : State} (h : s.AllHex) : ∃ bytes, pack s.stringOperand = some bytes :=
  Option.ne_none_iff_exists'.mp fun hnone => (pack_eq_none s).mp hnone h

/-- The byte that PACK makes of characters `2 * i` and `2 * i + 1`. -/
theorem pack_stringOperand_byte {s : State} {bytes : List Byte} (hpack : pack s.stringOperand = some bytes) {i : Nat}
    (hi_lt : i < (s.SLEN.toNat + 1) / 2) :
    ∃ b, bytes[i]? = some b ∧ hexval (s.charAt (2 * i)) = some (hi b) ∧
      (2 * i + 1 < s.SLEN.toNat → hexval (s.charAt (2 * i + 1)) = some (lo b)) ∧
      (2 * i + 1 = s.SLEN.toNat → lo b = 0) := by
  obtain ⟨v, hv, rfl⟩ := pack_eq_some.mp hpack
  obtain ⟨hlen, hvals⟩ := hexvals_eq_some_iff.mp hv
  rw [stringOperand_length] at hlen
  have hval : ∀ k < s.SLEN.toNat, hexval (s.charAt k) = v[k]? := fun k hk => hvals k _ (stringOperand_getElem? hk)
  obtain ⟨b, hb, hhigh, hlow, hpad⟩ := packNibbles_byte (hlen.symm ▸ hi_lt)
  rw [hlen] at hlow hpad
  exact ⟨b, hb, (hval _ (by omega)).trans hhigh, fun hlt => (hval _ hlt).trans (hlow hlt), hpad⟩

/-- Settles O15: the two faults by their tests, the bytes by `pack_stringOperand_byte`. -/
theorem packOperation : Obligations.PackOperation := by
  refine ⟨rfl, fun s => ⟨exec_pack_badCount, fun k c hle hk hw hS hbad => ?_, fun hle hw hhex => ?_⟩⟩
  · have hrejected : isHex c = false := by rw [isHex, hbad, Option.isSome_none]
    have hnot : ¬s.AllHex := fun hall => by
      have hgood := hall k hk
      rw [charAt_of_written hS, hbad] at hgood
      cases hgood
    exact exec_pack_badDigit hle (scanWritten_of_bad hw hS hrejected) hnot
  · obtain ⟨bytes, hpack⟩ := exists_pack_of_allHex hhex
    have hlen : bytes.length = (s.SLEN.toNat + 1) / 2 := by rw [pack_length hpack, stringOperand_length]
    have hfit : bytes.length ≤ 8 := by omega
    obtain ⟨hBLEN, hcells⟩ := completeB_holdsBytes (s := s) hfit
    refine ⟨_, exec_pack_of_holdsString (holdsString_stringOperand hw) (by simpa using hle) hpack, rfl,
      hBLEN.trans hlen, fun i hi_lt => ?_, fun i hge hi8 => ?_⟩
    · obtain ⟨b, hb, hnibbles⟩ := pack_stringOperand_byte hpack hi_lt
      exact ⟨b, hcells i b hb, hnibbles⟩
    · exact (fillB_cells hfit hi8).2 (by rw [← State.completeB_BLEN s, hBLEN, hlen]; exact hge)

/-- Settles O16: the fault by its test, the characters by `unpack_byte`. -/
theorem unpackOperation : Obligations.UnpackOperation := by
  refine ⟨rfl, fun s => ⟨exec_unpack_badCount, fun hle hw => ?_⟩⟩
  have hlen : (unpack s.bytesOperand).length = 2 * s.BLEN.toNat := by rw [unpack_length, bytesOperand_length]
  have hfit : (unpack s.bytesOperand).length ≤ 16 := by omega
  obtain ⟨hSLEN, hcells⟩ := completeS_holdsString (s := s) (malf := false) hfit
  refine ⟨_, exec_unpack_eq hle hw, rfl, hSLEN.trans hlen, fun i hi_lt => ?_, fun k hge hk16 => ?_⟩
  · obtain ⟨hhigh, hlow⟩ := unpack_byte (bytesOperand_getElem? hi_lt)
    exact ⟨hcells _ _ hhigh, hcells _ _ hlow⟩
  · exact (fillS_cells hfit hk16).2 (by rw [← State.completeS_SLEN s _ false, hSLEN, hlen]; exact hge)

/-! ### Each undoes the other (R156) -/

theorem pack_unpack (bytes : List Byte) : pack (unpack bytes) = some bytes := by
  rw [pack, unpack, hexvals_map_hexchar, Option.map_some, packNibbles_unpackNibbles]

/-- UNPACK does not know of the pad: after an odd length it spells it as a final `0`. -/
theorem unpack_of_pack {text bytes : List Byte} (h : pack text = some bytes) :
    unpack bytes = text ++ List.replicate (text.length % 2) 0x30 := by
  obtain ⟨v, hv, rfl⟩ := pack_eq_some.mp h
  rw [unpack, unpackNibbles_packNibbles, List.map_append, List.map_replicate, map_hexchar_of_hexvals hv,
    hexvals_length hv]
  rfl

/-- UNPACK, then PACK, on a buffer that holds `bytes`. -/
theorem exec_unpack_pack {s : State} {bytes : List Byte} (hs : s.HoldsBytes bytes) (hfit : bytes.length ≤ 8) :
    ∃ t u, exec .unpack s = .next t ∧ exec .pack t = .next u ∧ u.BLEN = s.BLEN ∧ u.HoldsBytes bytes := by
  have htext : (unpack bytes).length ≤ 16 := by rw [unpack_length]; omega
  have hbytes := completeB_holdsBytes (s := s.completeS (unpack bytes) false) hfit
  exact ⟨_, _, exec_unpack_of_holdsBytes hs hfit,
    exec_pack_of_holdsString (completeS_holdsString htext) htext (pack_unpack bytes),
    BitVec.eq_of_toNat_eq (hbytes.1.trans hs.1.symm), hbytes⟩

/-- PACK, then UNPACK, on a buffer that holds `text`. -/
theorem exec_pack_unpack {s : State} {text bytes : List Byte} (hs : s.HoldsString text) (hfit : text.length ≤ 16)
    (hpack : pack text = some bytes) :
    ∃ t u, exec .pack s = .next t ∧ exec .unpack t = .next u ∧
      u.HoldsString (text ++ List.replicate (text.length % 2) 0x30) := by
  have hlen := pack_length hpack
  have hbytes : bytes.length ≤ 8 := by omega
  have htext : (unpack bytes).length ≤ 16 := by rw [unpack_length]; omega
  refine ⟨_, _, exec_pack_of_holdsString hs hfit hpack,
    exec_unpack_of_holdsBytes (completeB_holdsBytes hbytes) hbytes, ?_⟩
  rw [← unpack_of_pack hpack]
  exact completeS_holdsString htext

/-- Settles O8: the laws on sequences, and in the registers what the second operation leaves. -/
theorem packerInverseLaws : Obligations.PackerInverseLaws := by
  refine ⟨pack_unpack, fun text bytes h => ⟨fun heven => ?_, fun hodd => ?_⟩, fun s hle hw => ?_,
    fun s hle hw hhex => ?_⟩
  · rw [unpack_of_pack h, heven, List.replicate_zero, List.append_nil]
  · rw [unpack_of_pack h, hodd, List.replicate_one]
  · obtain ⟨t, u, ht, hu, hBLEN, _, hcells⟩ :=
      exec_unpack_pack (holdsBytes_bytesOperand hw) (by simpa using hle)
    exact ⟨t, u, ht, hu, hBLEN, fun i hi => hcells i _ (bytesOperand_getElem? hi)⟩
  · obtain ⟨bytes, hpack⟩ := exists_pack_of_allHex hhex
    obtain ⟨t, u, ht, hu, hSLEN, hcells⟩ :=
      exec_pack_unpack (holdsString_stringOperand hw) (by simpa using hle) hpack
    refine ⟨t, u, ht, hu, by simpa using hSLEN, fun k hk => hcells k _ ?_, fun hodd => hcells _ _ ?_⟩
    · rw [List.getElem?_append_left (by simpa using hk), stringOperand_getElem? hk]
    · rw [stringOperand_length, hodd, List.getElem?_append_right (by simp), stringOperand_length, Nat.sub_self]
      rfl

end Sys2Proof.Machine
end

section
/-! PROOFS. The family of 60_exceptions.md: a command that ends in a fault writes `STATUS` and nothing else (R178,
R180), and an idle core without a command stays as it is (R193). -/

namespace Sys2Proof.Machine

/-- In the value that a fault gives `STATUS`, the reserved field is 0 and `MALF` stands for `DecodeOverrun` alone
(R178). -/
theorem faultStatus_fields {v : Byte} (h : v ∈ [0x01, 0x02, 0x03, 0x04, 0x15]) :
    statusReserved v = 0 ∧ (statusMalf v = true ↔ statusFault v = 5) := by
  revert v; decide

/-- An operation that is over with a fault code has written its `STATUS`: a completion, the assembler's too, has the
code of `None`. -/
theorem Leaves.fault_frame {i : Instr} {r t : State} (h : Leaves i r t) (hover : t.waiting = none)
    (hfault : statusFault t.STATUS ≠ 0) :
    t = r.setStatus t.STATUS ∧ t.STATUS ∈ [0x01, 0x02, 0x03, 0x04, 0x15] := by
  cases h with
  | fault v hlegal hcode => exact ⟨rfl, faultStatus_mem hlegal hcode⟩
  | valid => exact absurd (statusFault_statusByte false .noFault) hfault
  | intoB _ v _ _ hdone | intoS _ v _ _ hdone => exact absurd hdone hfault
  | assembled _ N _ hle =>
    obtain ⟨_, _, _, _, hdone⟩ := assemble_finished hle hover
    rw [hdone] at hfault
    exact absurd rfl hfault

/-- Settles O27: an operation's fault is that of `Leaves`, and a reserved byte raises `IllegalOp`. -/
theorem faultWritesOnlyStatus : Obligations.FaultWritesOnlyStatus := by
  intro cmd s t _ hrun hover hfault
  rcases runCommand_cases cmd s with ⟨i, _, hexec⟩ | ⟨_, hillegal⟩
  · obtain ⟨n, _, hl⟩ := leaves_of_exec (hexec.symm.trans hrun)
    obtain ⟨hframe, hmem⟩ := hl.fault_frame hover hfault
    rw [hl.reads_eq]
    exact ⟨hframe, faultStatus_fields hmem⟩
  · cases hillegal.symm.trans hrun
    exact ⟨rfl, faultStatus_fields (v := 0x04) (by decide)⟩

/-- Settles O11: the core is quiet. -/
theorem idleCoreStays : Obligations.IdleCoreStays := fun _ => step_quiet

end Sys2Proof.Machine
end

section
/-! PROOFS. The family of 70_reset_and_hazards.md: reset and the first command after it (R200, R201, R203), what the
host and the platform owe before a command (R205, R206), the wait for the random source (R214) and the end of every
command (R221). -/

namespace Sys2Proof.Machine

/-! ### Reset and the random source, at an idle core (R200, R203, R206) -/

/-- Settles O42: the event is taken, and the core is reset. -/
theorem resetInput : Obligations.ResetInput := fun _ _ => step_event

/-- Settles O46: the event is taken, and the source is connected. -/
theorem sourceConnectedToIdleCore : Obligations.SourceConnectedToIdleCore := fun _ _ _ => step_event

/-! ### The first command after reset (R201) -/

theorem holdsString_nil {s : State} (h : s.SLEN = 0) : s.HoldsString [] :=
  ⟨congrArg BitVec.toNat h, by simp⟩

theorem holdsBytes_nil {s : State} (h : s.BLEN = 0) : s.HoldsBytes [] :=
  ⟨congrArg BitVec.toNat h, by simp⟩

/-- Settles O43: length 0 is no PIN length and no block length, and a string and a byte array of no cells are packed
and unpacked, whatever the cells are. -/
theorem firstCommandAfterReset : Obligations.FirstCommandAfterReset := by
  rintro S B s rfl
  have hnoPin : lenOk (0 : BitVec 5).toNat = false := rfl
  exact ⟨exec_chklen_invalid hnoPin, exec_encode_invalidPinLength hnoPin,
    ⟨_, exec_pack_of_holdsString (bytes := []) (holdsString_nil rfl) (by decide) rfl, rfl, rfl⟩,
    ⟨_, exec_unpack_of_holdsBytes (holdsBytes_nil rfl) (by decide), rfl, rfl⟩,
    exec_decode_badCount (show (0 : BitVec 4).toNat ≠ 8 by decide)⟩

/-! ### The wait for the random source (R214) -/

/-- Settles O21: an unanswered ENCODE keeps what it has got, and while the source is silent the waiting core takes a
reset or a source past what is held off, or stays. -/
theorem encodeWaitsForTheSource : Obligations.EncodeWaitsForTheSource := by
  refine ⟨fun s hmin hmax hw hdec hsilent => ?_, fun s N hN hc hhost => ?_, fun s N held rest hN hc hhost he => ?_,
    fun s N src held rest hN hc hhost he => ?_⟩
  · exact ⟨_, _, exec_encode_unanswered ((lenOk_eq_true _).mpr ⟨hmin, hmax⟩) hw hdec hsilent,
      RandomSource.after_silent hsilent, rfl⟩
  · rw [step_waiting hN, stepWaiting_stuck hc (all_heldOff.mpr hhost)]
  · rw [step_waiting hN, stepWaiting_reset hc (all_heldOff.mpr hhost) he]
    rfl
  · rw [step_waiting hN, stepWaiting_connect hc (all_heldOff.mpr hhost) he]
    rfl

/-! ### Every command ends (R221) -/

theorem RandomSource.canAnswer_of_le {src : RandomSource} {m n : Nat} (hle : m ≤ n) (h : src.canAnswer n = true) :
    src.canAnswer m = true := by
  cases src with
  | live => rfl
  | stub left => exact decide_eq_true (hle.trans (of_decide_eq_true h))

namespace Leaves

variable {i : Instr} {r t : State}

/-- Nothing but an assembly starts or ends a wait. -/
theorem waiting_eq (h : Leaves i r t) (hi : i ≠ .encode) : t.waiting = r.waiting := by
  cases h with
  | assembled he => exact absurd he hi
  | _ => rfl

/-- An ENCODE has `2 + n` nibbles before its draws, those of an open outcome included (R29), so it is over when `14 - n`
requests are answered. -/
theorem encode_over (h : Leaves .encode r t) (hidle : r.waiting = none)
    (hc : r.source.canAnswer (14 - r.SLEN.toNat) = true) : t.waiting = none := by
  cases h with
  | fault => exact hidle
  | intoS hi => simp at hi
  | valid hi | intoB hi => cases hi
  | assembled _ N hsound hle =>
    obtain ⟨_, hlow, _⟩ := hsound
    exact assemble_over hle (RandomSource.canAnswer_of_le (by omega) hc)

end Leaves

/-- An ENCODE of written cells is over exactly if it faults before its draws or has all of them answered. -/
theorem encode_over_iff {s t : State} (hidle : s.waiting = none) (hwritten : s.OperandWritten .encode)
    (h : exec .encode s = .next t) :
    t.waiting = none ↔
      (4 ≤ s.SLEN.toNat ∧ s.SLEN.toNat ≤ 12 → s.AllDec → s.source.canAnswer (14 - s.SLEN.toNat) = true) := by
  rcases exec_encode_cases s with ⟨hbad, hu⟩ | ⟨_, _, hno, hu⟩ | ⟨hok, hw, hdec, _⟩ | ⟨hok, hopen, _⟩
  · cases h.symm.trans hu
    refine iff_of_true hidle fun hlen => ?_
    rw [(lenOk_eq_true _).mpr hlen] at hbad
    cases hbad
  · cases h.symm.trans hu
    exact iff_of_true hidle fun _ hdec => absurd hdec hno
  · cases hc : s.source.canAnswer (14 - s.SLEN.toNat) with
    | true =>
      cases h.symm.trans (exec_encode_answered hok hw hdec hc)
      exact iff_of_true rfl fun _ _ => rfl
    | false =>
      cases h.symm.trans (exec_encode_unanswered hok hw hdec hc)
      exact iff_of_false (by simp) fun hall => absurd (hall ((lenOk_eq_true _).mp hok) hdec) (by simp)
  · obtain ⟨hmin, hmax⟩ := (lenOk_eq_true _).mp hok
    exact absurd (hwritten hmin hmax) hopen

/-- Settles O12: what an operation can leave (`Leaves`), and for written cells the end of an ENCODE by its draws. -/
theorem commandsEnd : Obligations.CommandsEnd := by
  refine ⟨fun i s hi => ?_, fun cmd s hres => ⟨_, runCommand_reserved hres s, rfl⟩, fun s hidle => ?_⟩
  · obtain ⟨n, t, h, _, _, hl⟩ := leavesFrom i s
    exact ⟨t, h, hl.waiting_eq hi⟩
  · obtain ⟨n, t, h, _, _, hl⟩ := leavesFrom .encode s
    exact ⟨t, h, hl.encode_over hidle, fun hwritten => encode_over_iff hidle hwritten h⟩

/-! ### What the host owes (R205, R206) -/

section HostReady

variable {i : Instr} {s : State}

theorem hostReady_pack : s.hostReady .pack = true ↔ s.StringWritten s.SLEN.toNat := by
  simp [State.hostReady, State.StringWritten]

theorem hostReady_unpack : s.hostReady .unpack = true ↔ s.BytesWritten s.BLEN.toNat := by
  simp [State.hostReady, State.BytesWritten]

theorem hostReady_encode : s.hostReady .encode = true ↔
    s.StringWritten s.SLEN.toNat ∧ s.source.canAnswer (14 - s.SLEN.toNat) = true := by
  simp [State.hostReady, State.StringWritten]

theorem hostReady_decode : s.hostReady .decode = true ↔ s.BLEN = 8 ∧ s.BytesWritten 8 := by
  simp only [State.hostReady, State.BytesWritten, Bool.and_eq_true, decide_eq_true_eq, List.all_eq_true, List.mem_range]

theorem blockWritten_of_bytesWritten (hw : s.BytesWritten 8) : s.BlockWritten :=
  ⟨fun i hi => hw i (by omega), fun hle i hi => hw i (by omega)⟩

theorem operandWritten_of_hostReady (h : s.hostReady i = true) : s.OperandWritten i := by
  cases i with
  | pack => exact fun _ => scanWritten_of_written (hostReady_pack.mp h)
  | unpack => exact fun _ => hostReady_unpack.mp h
  | encode => exact fun _ _ => scanWritten_of_written (hostReady_encode.mp h).1
  | decode => exact fun _ => blockWritten_of_bytesWritten (hostReady_decode.mp h).2
  | chklen => trivial

end HostReady

/-! ### The counter of free values (R29, R30) -/

/-- The state with the counter that names the free values at `n`. -/
def State.withReads (n : Nat) (s : State) : State := { s with reads := n }

@[simp] theorem State.withReads_SLEN (s : State) (n : Nat) : (s.withReads n).SLEN = s.SLEN := rfl

@[simp] theorem State.withReads_BLEN (s : State) (n : Nat) : (s.withReads n).BLEN = s.BLEN := rfl

theorem sameString_withReads (s : State) (n : Nat) : s.SameString s.SLEN.toNat (s.withReads n) := fun _ _ => rfl

theorem sameBytes_withReads (s : State) (n m : Nat) : s.SameBytes m (s.withReads n) := fun _ _ => rfl

theorem stringOperand_withReads {s : State} (hw : s.StringWritten s.SLEN.toNat) (n : Nat) :
    (s.withReads n).stringOperand = s.stringOperand :=
  (stringOperand_eq_of_sameString (State.withReads_SLEN s n).symm (sameString_withReads s n) hw).symm

theorem bytesOperand_withReads {s : State} (hw : s.BytesWritten s.BLEN.toNat) (n : Nat) :
    (s.withReads n).bytesOperand = s.bytesOperand :=
  (bytesOperand_eq_of_sameBytes (State.withReads_BLEN s n).symm (sameBytes_withReads s n _) hw).symm

/-- What a scan rejects is a written character, so it rejects it under every counter. -/
theorem rejected_withReads {s : State} {accepts : Byte → Bool} (hscan : s.ScanWritten accepts)
    (hbad : ¬∀ k < s.SLEN.toNat, accepts (s.charAt k) = true) (n : Nat) :
    ¬∀ k < (s.withReads n).SLEN.toNat, accepts ((s.withReads n).charAt k) = true :=
  rejected_of_sameString (State.withReads_SLEN s n).symm (sameString_withReads s n) hscan hbad

/-- No free value has any influence on operation `i`: with another counter it goes on to the same state, but for that
counter. -/
def UsesNoFreeValue (i : Instr) (s : State) : Prop :=
  ∀ n, ∃ t, exec i s = .next t ∧ exec i (s.withReads n) = .next (t.withReads n)

/-- The assembler reads no cell. -/
theorem assemble_withReads (s : State) (N : List Nibble) (n : Nat) :
    (s.withReads n).assemble N = (s.assemble N).withReads n := by
  have hgot : (s.withReads n).drawn (16 - N.length) = s.drawn (16 - N.length) := rfl
  rw [assemble_eq hgot, assemble_eq rfl]
  split <;> rfl

section UsesNoFreeValue

/-! In each case the state with the other counter has the same cells, so it falls under the same case. -/

variable {i : Instr} {s : State}

theorem usesNoFreeValue_pack (hw : s.OperandWritten .pack) : UsesNoFreeValue .pack s := by
  intro n
  rcases exec_pack_cases s with ⟨hgt, h⟩ | ⟨hle, hscan, hnone, h⟩ | ⟨v, hle, hstr, hv, h⟩ | ⟨hle, hopen, _⟩
  · exact ⟨_, h, exec_pack_badCount (s := s.withReads n) hgt⟩
  · exact ⟨_, h, exec_pack_badDigit (s := s.withReads n) hle hscan
      (rejected_withReads (accepts := isHex) hscan ((pack_eq_none s).mp hnone) n)⟩
  · rw [← stringOperand_withReads hstr n] at hv
    exact ⟨_, h, exec_pack_eq (s := s.withReads n) hle hstr hv⟩
  · exact absurd (hw hle) hopen

theorem usesNoFreeValue_unpack (hw : s.OperandWritten .unpack) : UsesNoFreeValue .unpack s := by
  intro n
  rcases exec_unpack_cases s with ⟨hgt, h⟩ | ⟨hle, hbytes, h⟩ | ⟨hle, hopen, _⟩
  · exact ⟨_, h, exec_unpack_badCount (s := s.withReads n) hgt⟩
  · rw [← bytesOperand_withReads hbytes n] at h
    exact ⟨_, h, exec_unpack_eq (s := s.withReads n) hle hbytes⟩
  · exact absurd (hw hle) hopen

theorem usesNoFreeValue_encode (hw : s.OperandWritten .encode) : UsesNoFreeValue .encode s := by
  intro n
  rcases exec_encode_cases s with ⟨hno, h⟩ | ⟨hok, hscan, hbad, h⟩ | ⟨hok, hstr, hdec, h⟩ | ⟨hok, hopen, _⟩
  · exact ⟨_, h, exec_encode_invalidPinLength (s := s.withReads n) hno⟩
  · exact ⟨_, h, exec_encode_badDigit (s := s.withReads n) hok hscan (rejected_withReads hscan hbad n)⟩
  · have hdec' : (s.withReads n).AllDec := by rwa [← all_isdec_eq, stringOperand_withReads hstr, all_isdec_eq]
    rw [← stringOperand_withReads hstr n] at h
    refine ⟨_, h, ?_⟩
    rw [exec_encode_eq (s := s.withReads n) hok hstr hdec', assemble_withReads]
  · obtain ⟨hmin, hmax⟩ := (lenOk_eq_true _).mp hok
    exact absurd (hw hmin hmax) hopen

theorem usesNoFreeValue_decode (hw : s.OperandWritten .decode) : UsesNoFreeValue .decode s := by
  intro n
  have hsame := sameBytes_withReads s n 8
  rcases exec_decode_cases s with ⟨hne, h⟩ | ⟨heq, hblock, hgt, h⟩ | ⟨heq, hblock, hle, h⟩ | ⟨heq, hopen, _⟩
  · exact ⟨_, h, exec_decode_badCount (s := s.withReads n) hne⟩
  · have hL := blockLength_eq_of_sameBytes hsame hblock
    exact ⟨_, h, exec_decode_overrun (s := s.withReads n) heq (blockWritten_of_sameBytes hsame hblock) (hL ▸ hgt)⟩
  · have hL := blockLength_eq_of_sameBytes hsame hblock
    rw [pinBytes_eq_of_sameBytes hsame hblock hle, hL] at h
    exact ⟨_, h, exec_decode_eq (s := s.withReads n) heq (blockWritten_of_sameBytes hsame hblock) (hL ▸ hle)⟩
  · exact absurd (hw (BitVec.eq_of_toNat_eq heq)) hopen

theorem usesNoFreeValue_chklen (s : State) : UsesNoFreeValue .chklen s := by
  refine fun n => ⟨_, exec_chklen s, ?_⟩
  rw [exec_chklen, State.withReads_SLEN]
  split <;> rfl

theorem usesNoFreeValue_of_written (hw : s.OperandWritten i) : UsesNoFreeValue i s := by
  cases i with
  | pack => exact usesNoFreeValue_pack hw
  | unpack => exact usesNoFreeValue_unpack hw
  | encode => exact usesNoFreeValue_encode hw
  | decode => exact usesNoFreeValue_decode hw
  | chklen => exact usesNoFreeValue_chklen s

end UsesNoFreeValue

/-- Every command that the host was ready for is over in one step. -/
theorem over_of_hostReady {i : Instr} {s t : State} (hready : s.hostReady i = true) (h : exec i s = .next t)
    (hidle : s.waiting = none) : t.waiting = none := by
  obtain ⟨n, _, hl⟩ := leaves_of_exec h
  by_cases hi : i = .encode
  · subst hi
    exact hl.encode_over hidle (hostReady_encode.mp hready).2
  · exact (hl.waiting_eq hi).trans hidle

/-- Settles O34: the host's duty has the operand written and the draws answered. -/
theorem readyCommandUsesNoUnwrittenCell : Obligations.ReadyCommandUsesNoUnwrittenCell := by
  intro i s n hready
  have hw := operandWritten_of_hostReady hready
  obtain ⟨t, h, h'⟩ := usesNoFreeValue_of_written hw n
  exact ⟨hw, t, h, h', over_of_hostReady hready h⟩

end Sys2Proof.Machine
end
